-- ==== Sys2Proof/Word.lean ====
section
/-! DEFINITION. The storage and wire unit (R7, D35: 8 bits; R11: bit 7 is the most significant). -/

namespace Sys2Proof

/-- One byte of storage, one byte on the wire (R7, R11). -/
abbrev Byte := BitVec 8

/-- `x[7]`, the start-marker position of a byte (R11, R49). -/
def Byte.marked (x : Byte) : Bool := x.getLsbD 7

end Sys2Proof
end

