-- ==== Sys2Proof/Config.lean ====
section
/-! DEFINITION. The vocabulary of the block (R9 to R14), its configuration parameters (R7, R185) and the free values.
The configuration is plain data: State carries one and no step writes it (log 1). -/

namespace Sys2Proof

/-- The two ring-buffer instances of a device (R15). -/
inductive Buf where
  | rxb | txb
deriving DecidableEq, Repr

/-- The direction of a type-code space: controller-bound or remote-bound (R60). -/
inductive Dir where
  | ctl | rem
deriving DecidableEq, Repr

/-- Which end this device is (R7 `ROLE`, D27). -/
inductive Role where
  | controller | remote
deriving DecidableEq, Repr

/-- The message kinds of both directions, one tag each (R129, R139): nine and five, a closed set by the model's choice (DESIGN
CHOICE, log 13). -/
inductive Kind where
  | ctlSetDebugLed | ctlGetParameter | ctlSetParameter | ctlGetStatistic | ctlResetStatistics
  | ctlKeepAlive | ctlRun | ctlStop | ctlPing
  | remGetParameterResult | remGetStatisticResult | remLockFailed | remOcdTripped | remPing
deriving DecidableEq, Repr

/-- The five frame formats (R51). -/
inductive Format where
  | f0 | fb | fi | fv | fs
deriving DecidableEq, Repr

/-- What a poll makes of a group byte whose bit 7 is set (D22, U2): `mask` ignores the bit, `unspecified` leaves the
decoded field open. -/
inductive MarkedPolicy where
  | mask | unspecified
deriving DecidableEq, Repr

/-- One entry of a type table: code to (kind, format, length) (R60). -/
structure TypeRow where
  code   : BitVec 7
  kind   : Kind
  format : Format
  length : Nat
deriving DecidableEq, Repr

/-- A type table of one direction (R60): the entries, each code at most once when well formed. -/
abbrev TypeTable := List TypeRow

/-- How the 14-bit value of a catalog entry is interpreted (R124). -/
inductive EntryKind where
  | scaled (scale : Nat) (signed : Bool) (lo hi : Int)
  | enum (members : List (BitVec 14 × String))
deriving DecidableEq, Repr

/-- A catalog entry (R124): wire id, semantic identity, informative unit, interpretation. -/
structure Entry where
  id   : BitVec 7
  name : String
  unit : String
  kind : EntryKind
deriving DecidableEq, Repr

/-- A catalog (R123): its entries, each id at most once when well formed. -/
abbrev Catalog := List Entry

/-- A parameter or statistic value: an exact rational of a scaled entry, or a member of an enumerated one (R113, R119,
R132). -/
inductive PhysValue where
  | scaled (v : Rat)
  | member (m : String)
deriving DecidableEq, Repr

/-- A message: one tag per command and per result, typed by direction (R129, R139). An identity is named by its catalog
entry's `name`; a sequence number has 28 bits by type (R111). -/
inductive Message where
  | ctlSetDebugLed (f : Bool)
  | ctlGetParameter (p : String)
  | ctlSetParameter (p : String) (v : PhysValue)
  | ctlGetStatistic (s : String)
  | ctlResetStatistics
  | ctlKeepAlive
  | ctlRun
  | ctlStop
  | ctlPing (n : BitVec 28)
  | remGetParameterResult (p : String) (v : PhysValue)
  | remGetStatisticResult (s : String) (v : PhysValue)
  | remLockFailed
  | remOcdTripped
  | remPing (n : BitVec 28)
deriving DecidableEq, Repr

/-- The payload of a message, by format (R51). -/
inductive Payload where
  | none
  | flag (f : Bool)
  | ident (e : String)
  | value (e : String) (v : PhysValue)
  | sequence (n : BitVec 28)
deriving DecidableEq, Repr

/-- The error kinds (R146). The first three are DECODE's, `bufferFull` is ENCODE's. -/
inductive ErrorKind where
  | unknownFrameType | unknownCatalogId | invalidEnumeratedValue | bufferFull
deriving DecidableEq, Repr

/-- The outcome of a poll (R86). -/
inductive PollOutcome where
  | pending
  | message (m : Message)
  | error (k : ErrorKind)
deriving DecidableEq, Repr

/-- What an operation returns (R13). -/
inductive Result where
  | nothing
  | byte (x : Byte)
  | empty
  | number (n : Nat)
  | poll (o : PollOutcome)
  | written (ok : Bool)
deriving DecidableEq, Repr

/-- One operation request at the block's ports (R80, R97, R105): the select number, the instance whose port it is, the
data byte of `PUSH`, the direction of `DECODE` and the message of `ENCODE`. An operation reads only the ports it has. -/
structure Request where
  op  : BitVec 3
  buf : Buf
  din : Byte
  dir : Dir
  msg : Message
deriving DecidableEq, Repr

/-- What the surroundings present to the block, one a step: an operation request, or the reset of one instance between
operations (R167). -/
inductive Event where
  | request (r : Request)
  | reset (b : Buf)
deriving DecidableEq, Repr

/-- The configuration parameters (R7, R185), constant for a session (R26, R46). -/
structure Config where
  nRx          : Nat
  nTx          : Nat
  role         : Role
  ctlTable     : TypeTable
  remTable     : TypeTable
  paramCatalog : Catalog
  statCatalog  : Catalog
  markedPolicy : MarkedPolicy
deriving DecidableEq, Repr

/-- Free value (U5, log 4): what storage element `index` of `b` reads as when it is taken for occupied and nothing has been
written to it since `epoch` began. -/
opaque Config.freeElement (b : Buf) (epoch index : Nat) : Byte

/-- Free value (R185, U5, log 4): what the free element `index` of `b` holds, in an instance with these counters and this record
of written bytes. -/
opaque Config.freedElement (b : Buf) (epoch count wcur : Nat) (record : List (Nat × Byte)) (index : Nat) : Byte

/-- Free value (U1, log 7): `B.count` after a push on a full instance. -/
opaque Config.faultedCount (b : Buf) (epoch : Nat) : Nat

/-- Free value (U1, log 7): `B.wcur` after a push on a full instance. -/
opaque Config.faultedWcur (b : Buf) (epoch : Nat) : Nat

/-- Free value (U2, log 5): a 14-bit field decoded from a marked group under the policy `unspecified`. -/
opaque Config.markedWire (b : Buf) (draw : Nat) : BitVec 14

/-- Free value (U2, log 5): a 28-bit sequence field decoded from a marked group under the policy `unspecified`. -/
opaque Config.markedSequence (b : Buf) (draw : Nat) : BitVec 28

end Sys2Proof
end

