-- ==== Sys2Proof/Syntax.lean ====
section
/-! DEFINITION. The instructions: one constructor per row of spec/opcode_table.json (R2, R9, R70). -/

namespace Sys2Proof

/-- A frame constructor carries the buffer whose head the frame stands at and the fields its payload bytes encode (R51):
a boolean byte whole (R52), an id byte whole (R53), a 14-bit wire value (R55), a 28-bit sequence number (R57). An
operation constructor carries the operands of its rule. -/
inductive Instr where
  /-- `CTL.SetDebugLed`, format FB (R130). -/
  | ctlSetDebugLed (b : Buf) (p : Byte)
  /-- `CTL.GetParameter`, format FI (R131). -/
  | ctlGetParameter (b : Buf) (k : Byte)
  /-- `CTL.SetParameter`, format FV (R132). -/
  | ctlSetParameter (b : Buf) (k : Byte) (w : BitVec 14)
  /-- `CTL.GetStatistic`, format FI (R133). -/
  | ctlGetStatistic (b : Buf) (k : Byte)
  /-- `CTL.ResetStatistics`, format F0 (R134). -/
  | ctlResetStatistics (b : Buf)
  /-- `CTL.KeepAlive`, format F0 (R135). -/
  | ctlKeepAlive (b : Buf)
  /-- `CTL.Run`, format F0 (R136). -/
  | ctlRun (b : Buf)
  /-- `CTL.Stop`, format F0 (R137). -/
  | ctlStop (b : Buf)
  /-- `CTL.Ping`, format FS (R138). -/
  | ctlPing (b : Buf) (n : BitVec 28)
  /-- `REM.GetParameterResult`, format FV (R140). -/
  | remGetParameterResult (b : Buf) (k : Byte) (w : BitVec 14)
  /-- `REM.GetStatisticResult`, format FV (R141). -/
  | remGetStatisticResult (b : Buf) (k : Byte) (w : BitVec 14)
  /-- `REM.LockFailed`, format F0 (R142). -/
  | remLockFailed (b : Buf)
  /-- `REM.OcdTripped`, format F0 (R143). -/
  | remOcdTripped (b : Buf)
  /-- `REM.Ping`, format FS (R144). -/
  | remPing (b : Buf) (n : BitVec 28)
  /-- `PUSH B, x` (R72). -/
  | push (b : Buf) (x : Byte)
  /-- `POP B` (R74). -/
  | pop (b : Buf)
  /-- `PEEK B` (R75). -/
  | peek (b : Buf)
  /-- `COUNT B` (R76). -/
  | count (b : Buf)
  /-- `FREE B` (R77). -/
  | free (b : Buf)
  /-- `DECODE B, dir` (R86). -/
  | decode (b : Buf) (dir : Dir)
  /-- `ENCODE B, dir, M`; `dir` is the message's own direction (R98). -/
  | encode (b : Buf) (m : Message)
deriving DecidableEq, Repr

end Sys2Proof
end

