-- ==== Sys2Proof/Decode.lean ====
section
/-! DEFINITION. The encoding tables of 30_encoding.md, the group and field codecs (R52 to R57), the decoder of frames and
of operation requests, total and rejecting by name, and after it the encoder written from the same tables. The reference
configuration REF stands here too (R8, R62, R63, R126, R127). -/

namespace Sys2Proof

/-! ## Formats, kinds, tables -/

/-- Bytes of a frame of the format, the type byte included (R51). -/
def Format.length : Format → Nat
  | .f0 => 1
  | .fb => 2
  | .fi => 2
  | .fv => 4
  | .fs => 5

/-- The direction a message kind belongs to (R129, R139). -/
def Kind.dir : Kind → Dir
  | .ctlSetDebugLed | .ctlGetParameter | .ctlSetParameter | .ctlGetStatistic | .ctlResetStatistics
  | .ctlKeepAlive | .ctlRun | .ctlStop | .ctlPing => .ctl
  | .remGetParameterResult | .remGetStatisticResult | .remLockFailed | .remOcdTripped | .remPing => .rem

/-- The format of a message kind (R62, R63). -/
def Kind.format : Kind → Format
  | .ctlSetDebugLed => .fb
  | .ctlGetParameter | .ctlGetStatistic => .fi
  | .ctlSetParameter | .remGetParameterResult | .remGetStatisticResult => .fv
  | .ctlResetStatistics | .ctlKeepAlive | .ctlRun | .ctlStop | .remLockFailed | .remOcdTripped => .f0
  | .ctlPing | .remPing => .fs

/-- The frame length of a message kind (R48, R62, R63). -/
def Kind.length (k : Kind) : Nat := k.format.length

/-- The closed set of message kinds of a direction (R129, R139). -/
def Kind.ofDir : Dir → List Kind
  | .ctl => [.ctlSetDebugLed, .ctlGetParameter, .ctlSetParameter, .ctlGetStatistic, .ctlResetStatistics,
      .ctlKeepAlive, .ctlRun, .ctlStop, .ctlPing]
  | .rem => [.remGetParameterResult, .remGetStatisticResult, .remLockFailed, .remOcdTripped, .remPing]

/-- The kind is `Ping` of its direction (R138, R144). -/
def Kind.isPing : Kind → Bool
  | .ctlPing | .remPing => true
  | .ctlSetDebugLed | .ctlGetParameter | .ctlSetParameter | .ctlGetStatistic | .ctlResetStatistics | .ctlKeepAlive
  | .ctlRun | .ctlStop | .remGetParameterResult | .remGetStatisticResult | .remLockFailed | .remOcdTripped => false

/-- `Ping`'s type code, fixed in both directions (R7, R61). Every other code is the table's. -/
def pingCode : BitVec 7 := 0x7F#7

/-- A table entry the codec can use: a kind of the direction, with its kind's format and that format's length (R60, R186
`TableWellFormed`; U17 refuses every other pair), and the code 0x7F exactly for `Ping` (R7, R61; R60: two kinds of one
direction never share a code). -/
def TypeRow.ok (dir : Dir) (r : TypeRow) : Bool :=
  r.kind.dir == dir && r.format == r.kind.format && r.length == r.format.length && (r.code == pingCode) == r.kind.isPing

/-- The direction this end decodes (R60). -/
def Role.receives : Role → Dir
  | .controller => .ctl
  | .remote => .rem

/-- The direction this end encodes (R60). -/
def Role.sends : Role → Dir
  | .controller => .rem
  | .remote => .ctl

/-- `B.N` (R7, R16). -/
def Config.capacity (cfg : Config) : Buf → Nat
  | .rxb => cfg.nRx
  | .txb => cfg.nTx

/-- The type table of a direction (R60, R86). -/
def Config.table (cfg : Config) : Dir → TypeTable
  | .ctl => cfg.ctlTable
  | .rem => cfg.remTable

/-- `T(t)`, the decode direction of a type table (R60, R89). -/
def Config.lookupType (cfg : Config) (dir : Dir) (t : BitVec 7) : Option TypeRow :=
  (cfg.table dir).find? (fun r => r.code == t)

/-- `T.entry(kind)`, the encode direction of a type table (R60, R101). -/
def Config.entryOf (cfg : Config) (k : Kind) : Option TypeRow :=
  (cfg.table k.dir).find? (fun r => r.kind == k)

/-! ## Type bytes, groups, fields -/

/-- `0x80 | t` (R49). -/
def typeByte (t : BitVec 7) : Byte := 0x80#8 ||| t.setWidth 8

/-- `byte[6:0]`: the type code of a type byte (R49), the group of a group byte (R54). -/
def groupOf (x : Byte) : BitVec 7 := x.extractLsb' 0 7

/-- Group `k` of a field value, as its wire byte (R54): `(v >> 7k) & 0x7F`. -/
def groupByte {n : Nat} (v : BitVec n) (k : Nat) : Byte := (v >>> (7 * k)).setWidth 8 &&& 0x7F#8

/-- 14-bit assembly from two group bytes in wire order (R55, R108). -/
def assemble14 (p0 p1 : Byte) : BitVec 14 := (groupOf p0).setWidth 14 ||| ((groupOf p1).setWidth 14 <<< 7)

/-- 14-bit decomposition (R55, R109). -/
def split14 (w : BitVec 14) : List Byte := [groupByte w 0, groupByte w 1]

/-- 28-bit assembly from four group bytes in wire order (R57, R110). -/
def assemble28 (p0 p1 p2 p3 : Byte) : BitVec 28 :=
  (groupOf p0).setWidth 28 ||| ((groupOf p1).setWidth 28 <<< 7) ||| ((groupOf p2).setWidth 28 <<< 14)
    ||| ((groupOf p3).setWidth 28 <<< 21)

/-- 28-bit decomposition (R57, R111). -/
def split28 (s : BitVec 28) : List Byte := [groupByte s 0, groupByte s 1, groupByte s 2, groupByte s 3]

/-- The policy leaves the field open: some group byte is marked and the policy is `unspecified` (R66, U2). -/
def openGroups (policy : MarkedPolicy) (groups : List Byte) : Bool :=
  policy == .unspecified && groups.any Byte.marked

/-- The wire value a poll reads from two group bytes: R108, or a free value where the policy leaves it open (D22, U2). -/
def wireField (policy : MarkedPolicy) (b : Buf) (draw : Nat) (p0 p1 : Byte) : BitVec 14 :=
  if openGroups policy [p0, p1] then Config.markedWire b draw else assemble14 p0 p1

/-- The sequence number a poll reads from four group bytes: R110, or a free value where the policy leaves it open (D22,
U2). -/
def sequenceField (policy : MarkedPolicy) (b : Buf) (draw : Nat) (p0 p1 p2 p3 : Byte) : BitVec 28 :=
  if openGroups policy [p0, p1, p2, p3] then Config.markedSequence b draw else assemble28 p0 p1 p2 p3

/-- How many free values a frame with this payload takes: one when its group field is left open (U2). The groups of an FV
frame are its last two payload bytes, those of an FS frame all four; other formats have none (R51). -/
def frameDraws (policy : MarkedPolicy) (fmt : Format) (payload : List Byte) : Nat :=
  match fmt with
  | .f0 | .fb | .fi => 0
  | .fv => if openGroups policy (payload.drop 1) then 1 else 0
  | .fs => if openGroups policy payload then 1 else 0

/-! ## The decoder -/

/-- Why bytes or a request are no instruction. -/
inductive DecodeError where
  /-- No byte at all (R88). -/
  | noByte
  /-- The first byte carries no start marker (R65). -/
  | unmarkedHead
  /-- The type code has no entry in the direction's table (R64). -/
  | unknownTypeCode
  /-- The table entry fits no format (U17). -/
  | illFormedTableRow
  /-- Fewer bytes than the frame's length (R91). -/
  | incompleteFrame
  /-- Operation-select 7 (R163, U12), or a byte that is neither a type byte nor a select number. -/
  | noSuchOperation
deriving DecidableEq, Repr

/-- The frame at the start of the bytes `q`, which stand at the head of `b`, read with the direction's table (R59, R87
steps 3 and 4). The bytes after the frame are not looked at. `draw` selects the free value of R66's open case. -/
def decodeFrame (cfg : Config) (draw : Nat) (b : Buf) (dir : Dir) (q : List Byte) : Except DecodeError Instr :=
  match q with
  | [] => .error .noByte
  | h :: rest =>
    if h.marked then
      match cfg.lookupType dir (groupOf h) with
      | none => .error .unknownTypeCode
      | some row =>
        if row.ok dir then
          match row.kind, rest with
          | .ctlSetDebugLed, p :: _ => .ok (.ctlSetDebugLed b p)
          | .ctlGetParameter, k :: _ => .ok (.ctlGetParameter b k)
          | .ctlSetParameter, k :: p0 :: p1 :: _ => .ok (.ctlSetParameter b k (wireField cfg.markedPolicy b draw p0 p1))
          | .ctlGetStatistic, k :: _ => .ok (.ctlGetStatistic b k)
          | .ctlResetStatistics, _ => .ok (.ctlResetStatistics b)
          | .ctlKeepAlive, _ => .ok (.ctlKeepAlive b)
          | .ctlRun, _ => .ok (.ctlRun b)
          | .ctlStop, _ => .ok (.ctlStop b)
          | .ctlPing, p0 :: p1 :: p2 :: p3 :: _ => .ok (.ctlPing b (sequenceField cfg.markedPolicy b draw p0 p1 p2 p3))
          | .remGetParameterResult, k :: p0 :: p1 :: _ =>
            .ok (.remGetParameterResult b k (wireField cfg.markedPolicy b draw p0 p1))
          | .remGetStatisticResult, k :: p0 :: p1 :: _ =>
            .ok (.remGetStatisticResult b k (wireField cfg.markedPolicy b draw p0 p1))
          | .remLockFailed, _ => .ok (.remLockFailed b)
          | .remOcdTripped, _ => .ok (.remOcdTripped b)
          | .remPing, p0 :: p1 :: p2 :: p3 :: _ => .ok (.remPing b (sequenceField cfg.markedPolicy b draw p0 p1 p2 p3))
          | .ctlSetDebugLed, _ | .ctlGetParameter, _ | .ctlSetParameter, _ | .ctlGetStatistic, _ | .ctlPing, _
          | .remGetParameterResult, _ | .remGetStatisticResult, _ | .remPing, _ => .error .incompleteFrame
        else .error .illFormedTableRow
    else .error .unmarkedHead

/-- The operation a request selects (R163): PUSH 0, POP 1, PEEK 2, COUNT 3, FREE 4, DECODE 5, ENCODE 6; 7 selects none. -/
def decodeRequest (r : Request) : Except DecodeError Instr :=
  match r.op.toNat with
  | 0 => .ok (.push r.buf r.din)
  | 1 => .ok (.pop r.buf)
  | 2 => .ok (.peek r.buf)
  | 3 => .ok (.count r.buf)
  | 4 => .ok (.free r.buf)
  | 5 => .ok (.decode r.buf r.dir)
  | 6 => .ok (.encode r.buf r.msg)
  | _ => .error .noSuchOperation

/-! ## The encoder -/

/-- Where an instruction is written down: a frame's bytes at the head of a buffer, read with a direction's table, or a
request at the ports. -/
inductive Encoded where
  | frame (b : Buf) (dir : Dir) (bytes : List Byte)
  | request (r : Request)
deriving DecidableEq, Repr

/-- The decoder of both. -/
def decode (cfg : Config) (draw : Nat) : Encoded → Except DecodeError Instr
  | .frame b dir bytes => decodeFrame cfg draw b dir bytes
  | .request r => decodeRequest r

/-- A frame of the kind with the given payload bytes: `none` when the table has no entry for the kind (R99, R101). -/
def frameOf (cfg : Config) (b : Buf) (k : Kind) (payload : List Byte) : Option Encoded :=
  (cfg.entryOf k).map fun row => .frame b k.dir (typeByte row.code :: payload)

/-- The ports an operation leaves alone, at the values the model writes there (log 9). -/
def Request.idle (op : BitVec 3) (b : Buf) : Request :=
  { op := op, buf := b, din := 0#8, dir := .ctl, msg := .ctlPing 0#28 }

/-- The words of an instruction: a frame's bytes by format (R51), an operation's request by select number (R163). -/
def encode (cfg : Config) : Instr → Option Encoded
  | .ctlSetDebugLed b p => frameOf cfg b .ctlSetDebugLed [p]
  | .ctlGetParameter b k => frameOf cfg b .ctlGetParameter [k]
  | .ctlSetParameter b k w => frameOf cfg b .ctlSetParameter (k :: split14 w)
  | .ctlGetStatistic b k => frameOf cfg b .ctlGetStatistic [k]
  | .ctlResetStatistics b => frameOf cfg b .ctlResetStatistics []
  | .ctlKeepAlive b => frameOf cfg b .ctlKeepAlive []
  | .ctlRun b => frameOf cfg b .ctlRun []
  | .ctlStop b => frameOf cfg b .ctlStop []
  | .ctlPing b n => frameOf cfg b .ctlPing (split28 n)
  | .remGetParameterResult b k w => frameOf cfg b .remGetParameterResult (k :: split14 w)
  | .remGetStatisticResult b k w => frameOf cfg b .remGetStatisticResult (k :: split14 w)
  | .remLockFailed b => frameOf cfg b .remLockFailed []
  | .remOcdTripped b => frameOf cfg b .remOcdTripped []
  | .remPing b n => frameOf cfg b .remPing (split28 n)
  | .push b x => some (.request { Request.idle 0#3 b with din := x })
  | .pop b => some (.request (Request.idle 1#3 b))
  | .peek b => some (.request (Request.idle 2#3 b))
  | .count b => some (.request (Request.idle 3#3 b))
  | .free b => some (.request (Request.idle 4#3 b))
  | .decode b dir => some (.request { Request.idle 5#3 b with dir := dir })
  | .encode b m => some (.request { Request.idle 6#3 b with msg := m })

/-! ## The reference configuration REF -/

/-- REF's controller-bound table (R62). Only Ping's code is the source's (R61). -/
def Config.refCtlTable : TypeTable := [
  ⟨0x00#7, .ctlSetDebugLed, .fb, 2⟩,
  ⟨0x01#7, .ctlGetParameter, .fi, 2⟩,
  ⟨0x02#7, .ctlSetParameter, .fv, 4⟩,
  ⟨0x03#7, .ctlGetStatistic, .fi, 2⟩,
  ⟨0x04#7, .ctlResetStatistics, .f0, 1⟩,
  ⟨0x05#7, .ctlKeepAlive, .f0, 1⟩,
  ⟨0x06#7, .ctlRun, .f0, 1⟩,
  ⟨0x07#7, .ctlStop, .f0, 1⟩,
  ⟨0x7F#7, .ctlPing, .fs, 5⟩]

/-- REF's remote-bound table (R63). -/
def Config.refRemTable : TypeTable := [
  ⟨0x00#7, .remGetParameterResult, .fv, 4⟩,
  ⟨0x01#7, .remGetStatisticResult, .fv, 4⟩,
  ⟨0x02#7, .remLockFailed, .f0, 1⟩,
  ⟨0x03#7, .remOcdTripped, .f0, 1⟩,
  ⟨0x7F#7, .remPing, .fs, 5⟩]

/-- REF's parameter catalog (R126). -/
def Config.refParamCatalog : Catalog := [
  ⟨0#7, "StartupFrequency", "kHz", .scaled 16 false 0 16383⟩,
  ⟨1#7, "CurrentLimit", "A", .scaled 32 false 0 16383⟩,
  ⟨2#7, "RefPower", "fraction", .scaled 16383 false 0 16383⟩,
  ⟨3#7, "RefTimeUs", "us", .scaled 1 false 0 16383⟩,
  ⟨4#7, "RefTimeMs", "ms", .scaled 1 false 0 16383⟩,
  ⟨5#7, "RefRunMode", "none", .enum [(0#14, "RunModeA"), (1#14, "RunModeB")]⟩,
  ⟨6#7, "RefSignedOffset", "none", .scaled 1 true (-8192) 8191⟩]

/-- REF's statistic catalog (R127). -/
def Config.refStatCatalog : Catalog := [
  ⟨0#7, "MaxPrimaryCurrent", "A", .scaled 32 false 0 16383⟩,
  ⟨1#7, "RefSignedStat", "none", .scaled 16 true (-8192) 8191⟩]

/-- The configuration the machine stands in at `State.reset`: REF's tables and catalogs (R8), the default policy (U2), and
the capacities and role the model names (log 2: the spec leaves them OPEN). -/
def Config.ref : Config where
  nRx := 16
  nTx := 8
  role := .controller
  ctlTable := Config.refCtlTable
  remTable := Config.refRemTable
  paramCatalog := Config.refParamCatalog
  statCatalog := Config.refStatCatalog
  markedPolicy := .mask

/-! ## Words numbered as spec/opcode_table.json numbers them -/

/-- Byte `k` of a word of `nbits` bits, the first byte the least significant; bits above `nbits` are 0. -/
def tableByte (nbits w k : Nat) : Byte := BitVec.ofNat 8 ((w % 2 ^ nbits) >>> (8 * k))

/-- The bytes of such a word, up to the longest frame (R48: five). -/
def tableBytes (nbits w : Nat) : List Byte := (List.range 5).map (tableByte nbits w)

/-- The request a select byte stands for, with its operands at zero (log 9): the first buffer, or TXB for `ENCODE`; the byte
0x00; this end's own receiving direction; the message `Ping(0)` of its sending direction. A byte of 8 to 127 selects
nothing: the select input has three bits (R80). -/
def requestOfByte (role : Role) (x : Byte) : Option Request :=
  if x.toNat < 8 then
    some {
      op := x.setWidth 3
      buf := if x.toNat = 6 then .txb else .rxb
      din := 0#8
      dir := role.receives
      msg := match role.sends with
        | .ctl => .ctlPing 0#28
        | .rem => .remPing 0#28 }
  else none

/-- The instruction a table word stands for in REF: a marked first byte is a type byte, read with the table of this end's
receiving direction; an unmarked one is an operation select (log 9). -/
def decodeTableWord (nbits w : Nat) : Option Instr :=
  if (tableByte nbits w 0).marked then
    (decodeFrame Config.ref 0 .rxb Config.ref.role.receives (tableBytes nbits w)).toOption
  else
    (requestOfByte Config.ref.role (tableByte nbits w 0)).bind fun r => (decodeRequest r).toOption

end Sys2Proof
end

