-- ==== Sys2Proof/WellFormed.lean ====
section
/-! DEFINITION. Well-formed tables, catalogs and configurations (R186), and well-formed instructions: the frames a
legitimate encoder emits (R50) and the operands an operation may be given (R98, R111, R113). -/

namespace Sys2Proof

/-- `TableWellFormed` (R186, R60): every entry fits its kind and format and gives 0x7F to `Ping` alone (R7, R61), codes are
distinct, and every kind of the direction has exactly one entry (R60: total on the direction's kinds). That the kinds are
exactly those of `Kind.ofDir` is the model's choice, DESIGN CHOICE, log 13: the spec calls the list illustrative and a part
of the table (R129, N8). -/
def TypeTable.wf (dir : Dir) (t : TypeTable) : Bool :=
  t.all (TypeRow.ok dir) && decide (t.map TypeRow.code).Nodup && decide (t.map TypeRow.kind).Nodup
    && (Kind.ofDir dir).all (fun k => (t.map TypeRow.kind).contains k)

/-- The kind part of `CatalogWellFormed` (R186, R124): scale at least 1, `lo <= hi` within the signed or unsigned 14-bit
range; enumeration raws distinct (their range is their type's). Two raws may share a member name (log 14). -/
def EntryKind.wf : EntryKind → Bool
  | .scaled scale signed lo hi =>
    decide (1 ≤ scale) && decide (lo ≤ hi)
      && (if signed then decide (-8192 ≤ lo) && decide (hi ≤ 8191) else decide (0 ≤ lo) && decide (hi ≤ 16383))
  | .enum members => decide (members.map Prod.fst).Nodup

/-- `CatalogWellFormed` (R186): ids distinct (their range is their type's), every entry well formed; identities distinct
(R122: an identity has one wire id; log 10). -/
def Catalog.wf (c : Catalog) : Bool :=
  c.all (fun e => e.kind.wf) && decide (c.map Entry.id).Nodup && decide (c.map Entry.name).Nodup

/-- A configuration the rules describe: both capacities at least 1 (D3), tables and catalogs well formed (R186). -/
def Config.wf (cfg : Config) : Bool :=
  decide (1 ≤ cfg.nRx) && decide (1 ≤ cfg.nTx) && cfg.ctlTable.wf .ctl && cfg.remTable.wf .rem
    && cfg.paramCatalog.wf && cfg.statCatalog.wf

/-- The identity is an entry of the catalog (R131, R133). -/
def Catalog.hasIdent (c : Catalog) (e : String) : Bool := c.any (fun x => x.name == e)

/-- The pair is a value of the catalog (R132): a rational for a scaled entry, one of its members for an enumerated one. -/
def Catalog.hasValue (c : Catalog) (e : String) (v : PhysValue) : Bool :=
  match c.find? (fun x => x.name == e) with
  | none => false
  | some x =>
    match x.kind, v with
    | .scaled _ _ _ _, .scaled _ => true
    | .enum members, .member m => members.any (fun p => p.2 == m)
    | .scaled _ _ _ _, .member _ => false
    | .enum _, .scaled _ => false

/-- The message is an operand of `ENCODE` in this configuration (R98, R131 to R133, R140, R141). -/
def Message.wf (cfg : Config) : Message → Bool
  | .ctlGetParameter p => cfg.paramCatalog.hasIdent p
  | .ctlSetParameter p v => cfg.paramCatalog.hasValue p v
  | .ctlGetStatistic s => cfg.statCatalog.hasIdent s
  | .remGetParameterResult p v => cfg.paramCatalog.hasValue p v
  | .remGetStatisticResult s v => cfg.statCatalog.hasValue s v
  | .ctlSetDebugLed _ | .ctlResetStatistics | .ctlKeepAlive | .ctlRun | .ctlStop | .ctlPing _
  | .remLockFailed | .remOcdTripped | .remPing _ => true

/-- A frame as a legitimate encoder emits it carries no marked payload byte (R50, R103): a boolean byte is 0x00 or 0x01
(R107), an id byte is below 0x80 (R53); group bytes are unmarked by construction. `ENCODE` takes an operand (R98). -/
def Instr.wf (cfg : Config) : Instr → Bool
  | .ctlSetDebugLed _ p => p == 0#8 || p == 1#8
  | .ctlGetParameter _ k | .ctlSetParameter _ k _ | .ctlGetStatistic _ k | .remGetParameterResult _ k _
  | .remGetStatisticResult _ k _ => !k.marked
  | .encode _ m => m.wf cfg
  | .ctlResetStatistics _ | .ctlKeepAlive _ | .ctlRun _ | .ctlStop _ | .ctlPing _ _ | .remLockFailed _
  | .remOcdTripped _ | .remPing _ _ | .push _ _ | .pop _ | .peek _ | .count _ | .free _ | .decode _ _ => true

end Sys2Proof
end

