-- ==== Sys2Proof/Machine/State.lean ====
section
/-! DEFINITION. The state of one device (R15 to R22, R29), the reasons a step can stop, and the state after reset. -/

namespace Sys2Proof.Machine

/-- Storage as a record of what `PUSH` last wrote: a list of (index, byte) pairs, indices strictly rising (R16: only `PUSH`
writes; R31). The record is not what every element holds: an index that is not listed holds no byte of the model's own, and a
free element holds a free value whatever is listed for it (`Ring.element`; log 4). -/
abbrev Memory := List Host.Cell

/-- One ring-buffer instance: the state of R16 to R18, the mark of R22, and two counters of the model's own that select free
values (log 7): `epoch` those of unlisted elements and of `count` and `wcur` after a contract violation, `draws` those of
marked group fields. -/
structure Ring where
  storage : Memory
  count   : Nat
  wcur    : Nat
  fault   : Bool
  epoch   : Nat
  draws   : Nat
deriving DecidableEq, Repr

/-- An instance as it is created (R29, R165, R166): empty, cursor 0, no fault; no storage element has a value. -/
def Ring.reset : Ring := { storage := [], count := 0, wcur := 0, fault := false, epoch := 0, draws := 0 }

/-- The device: its configuration (constant, log 1), its two instances (R15), and two fields of the model's own: what the
last operation returned (R13, R25; log 6) and the requests its surroundings are about to make (R10, R41; log 3). -/
structure State where
  cfg      : Config
  rxb      : Ring
  txb      : Ring
  result   : Result
  schedule : List Event
deriving DecidableEq, Repr

/-- Why the machine stops. -/
inductive Fault where
  /-- Raised by every operation and every frame on an instance whose fault mark is set: "no rule of this spec gives the
  result of a later operation on B" (R22, R73, U1). Safe: the model stops where a device goes on in an undefined way. -/
  | ringFaulted (b : Buf)
deriving DecidableEq, Repr

/-- Why the machine has no meaning for what it was asked. -/
inductive Refusal where
  /-- Raised by exec for an instruction without a meaning; no arm does. Safe. -/
  | notModelled (mnemonic : String)
  /-- Raised by DECODE and ENCODE when the direction's table has an entry of no format (U17), an entry whose code is 0x7F without being
  `Ping`'s or the other way round (R7, R61), or no entry for a kind: `TableWellFormed` excludes all (R60, R186; log 12).
  Safe. -/
  | illFormedTable (dir : Dir)
  /-- Raised by ENCODE for a message that is no operand of it: an identity its catalog does not hold, or a value of the
  other kind (R98, R113, U16, U19 `refuse`). Safe. -/
  | notAnOperand
deriving DecidableEq, Repr

/-- What a step answers. -/
abbrev Answer := Host.Outcome State Fault Refusal

/-- A freshly constructed device of a given configuration (R29, R165, R166), nothing requested yet. -/
def State.resetWith (cfg : Config) : State :=
  { cfg := cfg, rxb := Ring.reset, txb := Ring.reset, result := .nothing, schedule := [] }

/-- The machine right after reset, in the configuration of log 2. -/
def State.reset : State := State.resetWith Config.ref

end Sys2Proof.Machine
end

