-- ==== Sys2Proof/Machine/Ops.lean ====
section
/-! DEFINITION. The operations over storage and over one instance (20_memory.md, 40_ringbuffer.md), the resync scan and the
drain of a poll (R82, R92), and how an operation ends: a result, written back with the instance (R13, R150). An error is a
result: what the spec has in the place of taking an exception is `finish` after the bytes its rule consumes (R145, R150),
and there is nothing to return from (R154). -/

namespace Sys2Proof.Machine

/-! ## Storage -/

/-- The canonical form of storage: indices strictly rising. -/
def Memory.wf (m : Memory) : Bool := decide ((m.map Prod.fst).Pairwise (· < ·))

/-- The byte written at index `i`, if any. -/
def Memory.read : Memory → Nat → Option Byte
  | [], _ => none
  | (j, x) :: m, i => if i = j then some x else Memory.read m i

/-- `MemWrite` of one byte at index `i` (R36). -/
def Memory.write : Memory → Nat → Byte → Memory
  | [], i, x => [(i, x)]
  | (j, y) :: m, i, x =>
    if i < j then (i, x) :: (j, y) :: m
    else if i = j then (i, x) :: m
    else (j, y) :: Memory.write m i x

/-! ## One instance -/

/-- The byte last written at index `i`, else a free value (R29, U5; log 4): what `B.storage[i]` holds while it is occupied. -/
def Ring.written (b : Buf) (B : Ring) (i : Nat) : Byte :=
  (B.storage.read i).getD (Config.freeElement b B.epoch i)

/-- `head_index(B) = (wcur - count) mod N`, the subtraction on integers (R19, R33). -/
def Ring.headIndex (N : Nat) (B : Ring) : Nat := (((B.wcur : Int) - (B.count : Int)) % (N : Int)).toNat

/-- The index of the `k`-th occupied element from the head (R16, R20). -/
def Ring.slot (N : Nat) (B : Ring) (k : Nat) : Nat := (B.headIndex N + k) % N

/-- Index `i` is occupied (R16): one of the `B.count` indices from the head on. The others are free. -/
def Ring.occupied (N : Nat) (B : Ring) (i : Nat) : Bool := (List.range B.count).any fun k => B.slot N k == i

/-- `MemRead` of one byte, `B.storage[i]` (R16, R36): the byte written there while the element is occupied; a free value
while it is free, whether never written or popped since (R185, U5; log 4). -/
def Ring.element (b : Buf) (N : Nat) (B : Ring) (i : Nat) : Byte :=
  if B.occupied N i then B.written b i else Config.freedElement b B.epoch B.count B.wcur B.storage i

/-- `Q`, the bytes pushed and not yet popped, oldest first (R20, R78). -/
def Ring.queue (b : Buf) (N : Nat) (B : Ring) : List Byte :=
  (List.range B.count).map fun k => B.written b (B.slot N k)

/-- The instance after `PUSH B, x` when it is not full (R72). The index is "already reduced mod N" (R12). -/
def Ring.pushed (N : Nat) (B : Ring) (x : Byte) : Ring :=
  { B with storage := B.storage.write (B.wcur % N) x, wcur := (B.wcur + 1) % N, count := B.count + 1 }

/-- The instance after `PUSH B, x` when it is full (R73, U1): the one certain write, the fault mark, and free values for
`count`, `wcur` and the other elements (R22, R185; log 7). -/
def Ring.overrun (b : Buf) (N : Nat) (B : Ring) (x : Byte) : Ring :=
  { storage := Memory.write [] (B.wcur % N) x
    count := Config.faultedCount b (B.epoch + 1)
    wcur := Config.faultedWcur b (B.epoch + 1)
    fault := true
    epoch := B.epoch + 1
    draws := B.draws }

/-- `PUSH B, x` (R72, R73). -/
def Ring.push (b : Buf) (N : Nat) (B : Ring) (x : Byte) : Ring :=
  if B.count < N then B.pushed N x else B.overrun b N x

/-- `PEEK B` (R75): the head byte, `none` for `Empty`. -/
def Ring.peek (b : Buf) (N : Nat) (B : Ring) : Option Byte :=
  if B.count = 0 then none else some (B.element b N (B.headIndex N))

/-- The instance after a `POP` (R74): only `count` is written. The element read is not cleared, so the record of
written bytes stands (R16, R74, R79); it becomes free, and from then on reads as a free value (`Ring.element`; R185, U5;
log 4). -/
def Ring.popped (B : Ring) : Ring := { B with count := B.count - 1 }

/-- `POP B` (R74): what `PEEK` gives, and the instance after. -/
def Ring.pop (b : Buf) (N : Nat) (B : Ring) : Option Byte × Ring :=
  match B.peek b N with
  | none => (none, B)
  | some x => (some x, B.popped)

/-- The loop of `SCAN` (R82); at most `fuel` bytes are discarded. -/
def Ring.scanLoop (b : Buf) (N : Nat) : Nat → Ring → Ring
  | 0, B => B
  | fuel + 1, B =>
    match B.peek b N with
    | none => B
    | some x => if x.marked then B else Ring.scanLoop b N fuel B.popped

/-- `SCAN B` (R82): discard unmarked bytes at the head. It discards at most `B.count` bytes (R83). -/
def Ring.scan (b : Buf) (N : Nat) (B : Ring) : Ring := Ring.scanLoop b N B.count B

/-- `n` successive `POP`s (R87 step 4, R92): the bytes, and the instance after. -/
def Ring.drain (b : Buf) (N : Nat) : Nat → Ring → List Byte × Ring
  | 0, B => ([], B)
  | n + 1, B =>
    match B.pop b N with
    | (none, B') => ([], B')
    | (some x, B') => (x :: (Ring.drain b N n B').1, (Ring.drain b N n B').2)

/-- Successive `PUSH`es (R99). -/
def Ring.pushAll (b : Buf) (N : Nat) : Ring → List Byte → Ring
  | B, [] => B
  | B, x :: xs => Ring.pushAll b N (B.push b N x) xs

/-- The instance with `n` more free values taken (log 7). -/
def Ring.drawn (B : Ring) (n : Nat) : Ring := { B with draws := B.draws + n }

/-- The instance returned to its reset state at run time (R167): its elements are unspecified anew (R166; log 7). -/
def Ring.restarted (B : Ring) : Ring :=
  { storage := [], count := 0, wcur := 0, fault := false, epoch := B.epoch + 1, draws := B.draws }

/-! ## The device -/

/-- The instance of a name (R15). -/
def State.ring (s : State) : Buf → Ring
  | .rxb => s.rxb
  | .txb => s.txb

/-- The device with one instance replaced; the other is untouched (R15). -/
def State.setRing (s : State) (b : Buf) (B : Ring) : State :=
  match b with
  | .rxb => { s with rxb := B }
  | .txb => { s with txb := B }

/-- The device with the result port replaced (R13, R25; log 6). -/
def State.setResult (s : State) (r : Result) : State := { s with result := r }

/-- `B.N` of an instance of this device (R7, R16). -/
def State.cap (s : State) (b : Buf) : Nat := s.cfg.capacity b

/-- An operation on `b` ends: the instance it leaves and the result it returns (R13, R150). -/
def finish (s : State) (b : Buf) (B : Ring) (r : Result) : Answer := .next ((s.setRing b B).setResult r)

/-- An operation on `b` runs on the instance unless its fault mark is set, in which case no rule gives a result (R22). -/
def live (s : State) (b : Buf) (f : Ring → Answer) : Answer :=
  if (s.ring b).fault then .fault (.ringFaulted b) else f (s.ring b)

/-- A frame of `L` bytes at the head of `b` (R91, R92, R93): while fewer bytes are there the poll is `Pending` and consumes
nothing; otherwise exactly `L` bytes are consumed, whatever the outcome. -/
def acceptFrame (s : State) (b : Buf) (L : Nat) (o : PollOutcome) : Answer :=
  live s b fun B =>
    if B.count < L then finish s b B (.poll .pending)
    else finish s b (B.drain b (s.cap b) L).2 (.poll o)

end Sys2Proof.Machine
end

