-- ==== Sys2Proof/Machine/Operands.lean ====
section
/-! DEFINITION. The field and value codecs of 44_fields_and_catalogs.md: pure functions of their arguments and the tables,
and DecodePayload (R94) and EncodePayload (R102) over them. -/

namespace Sys2Proof.Machine

/-! ## Boolean and signed fields -/

/-- R106: all eight bits are tested. -/
def decodeBool (p : Byte) : Bool := p != 0#8

/-- R107. -/
def encodeBool (f : Bool) : Byte := if f then 0x01#8 else 0x00#8

/-- R112, R56: bit 13 set forces bits 14 and 15 to 1, read as 16-bit two's complement. -/
def signExtend14 (w : BitVec 14) : Int :=
  (if w.getLsbD 13 then w.setWidth 16 ||| 0xC000#16 else w.setWidth 16).toInt

/-- R112: `r mod 16384`. -/
def toWire14 (r : Int) : BitVec 14 := BitVec.ofInt 14 r

/-! ## Scaled and enumerated values -/

/-- `trunc(q)`: the fraction is discarded, toward zero (R11, R115). -/
def truncZero (q : Rat) : Int := q.num.tdiv (q.den : Int)

/-- `clamp(x, lo, hi)` (R11). -/
def clampInt (x lo hi : Int) : Int := if x < lo then lo else if hi < x then hi else x

/-- The raw value of a physical value: multiply, truncate, clamp (R115). -/
def quantize (scale : Nat) (lo hi : Int) (v : Rat) : Int := clampInt (truncZero (v * (scale : Rat))) lo hi

/-- `EncodeValue(e, v)` (R116, R120): the wire value, or `none` when `v` is not a value of the entry (R98). A member paired
with two raws encodes to the raw of its first pair in list order: the model's choice, DESIGN CHOICE, log 14 (R120 says "the
raw integer paired with `m`", R186 asks for distinct raws only). -/
def encodeValue (k : EntryKind) (v : PhysValue) : Option (BitVec 14) :=
  match k, v with
  | .scaled scale signed lo hi, .scaled q =>
    some (if signed then toWire14 (quantize scale lo hi q) else BitVec.ofNat 14 (quantize scale lo hi q).toNat)
  | .enum members, .member m => (members.find? (fun p => p.2 == m)).map Prod.fst
  | .scaled _ _ _ _, .member _ => none
  | .enum _, .scaled _ => none

/-- The raw value of a wire value (R55, R56, R117). -/
def rawOfWire (signed : Bool) (w : BitVec 14) : Int := if signed then signExtend14 w else (w.toNat : Int)

/-- `DecodeValue(e, w)` (R117 to R119): an exact quotient with no range check, or the member; `none` is `invalid`. -/
def decodeValue (k : EntryKind) (w : BitVec 14) : Option PhysValue :=
  match k with
  | .scaled scale signed _ _ => some (.scaled ((rawOfWire signed w : Rat) / (scale : Rat)))
  | .enum members => (members.find? (fun p => p.1 == w)).map (fun p => .member p.2)

/-! ## Catalogs -/

/-- `Lookup(C, k)` (R121): the whole byte is the key, so a byte of 128 or more is never found. -/
def lookupId (c : Catalog) (k : Byte) : Option Entry := c.find? (fun e => e.id.toNat == k.toNat)

/-- The entry of an identity (R122). -/
def entryNamed (c : Catalog) (e : String) : Option Entry := c.find? (fun x => x.name == e)

/-- `Id(e)` as its wire byte (R53, R122). -/
def idByte (e : Entry) : Byte := e.id.setWidth 8

/-- The outcome of a frame whose payload is an id (R131, R133): the message, or `UnknownCatalogId` (R67). -/
def identOutcome (c : Catalog) (k : Byte) (mk : String → Message) : PollOutcome :=
  match lookupId c k with
  | none => .error .unknownCatalogId
  | some e => .message (mk e.name)

/-- The outcome of a frame whose payload is an id and a 14-bit value (R132, R140, R141): `UnknownCatalogId` first, then
`InvalidEnumeratedValue`, else the message (R152). -/
def valueOutcome (c : Catalog) (k : Byte) (w : BitVec 14) (mk : String → PhysValue → Message) : PollOutcome :=
  match lookupId c k with
  | none => .error .unknownCatalogId
  | some e =>
    match decodeValue e.kind w with
    | none => .error .invalidEnumeratedValue
    | some v => .message (mk e.name v)

end Sys2Proof.Machine

namespace Sys2Proof

/-! ## Messages and payloads -/

/-- The kind of a message. -/
def Message.kind : Message → Kind
  | .ctlSetDebugLed _ => .ctlSetDebugLed
  | .ctlGetParameter _ => .ctlGetParameter
  | .ctlSetParameter _ _ => .ctlSetParameter
  | .ctlGetStatistic _ => .ctlGetStatistic
  | .ctlResetStatistics => .ctlResetStatistics
  | .ctlKeepAlive => .ctlKeepAlive
  | .ctlRun => .ctlRun
  | .ctlStop => .ctlStop
  | .ctlPing _ => .ctlPing
  | .remGetParameterResult _ _ => .remGetParameterResult
  | .remGetStatisticResult _ _ => .remGetStatisticResult
  | .remLockFailed => .remLockFailed
  | .remOcdTripped => .remOcdTripped
  | .remPing _ => .remPing

/-- The payload of a message (R51, R102). -/
def Message.payload : Message → Payload
  | .ctlSetDebugLed f => .flag f
  | .ctlGetParameter p => .ident p
  | .ctlSetParameter p v => .value p v
  | .ctlGetStatistic s => .ident s
  | .ctlResetStatistics | .ctlKeepAlive | .ctlRun | .ctlStop | .remLockFailed | .remOcdTripped => .none
  | .ctlPing n => .sequence n
  | .remGetParameterResult p v => .value p v
  | .remGetStatisticResult s v => .value s v
  | .remPing n => .sequence n

/-- `kind(payload)`, the variant constructor of R89: `none` for a payload of another format. -/
def Kind.make : Kind → Payload → Option Message
  | .ctlSetDebugLed, .flag f => some (.ctlSetDebugLed f)
  | .ctlGetParameter, .ident p => some (.ctlGetParameter p)
  | .ctlSetParameter, .value p v => some (.ctlSetParameter p v)
  | .ctlGetStatistic, .ident s => some (.ctlGetStatistic s)
  | .ctlResetStatistics, .none => some .ctlResetStatistics
  | .ctlKeepAlive, .none => some .ctlKeepAlive
  | .ctlRun, .none => some .ctlRun
  | .ctlStop, .none => some .ctlStop
  | .ctlPing, .sequence n => some (.ctlPing n)
  | .remGetParameterResult, .value p v => some (.remGetParameterResult p v)
  | .remGetStatisticResult, .value s v => some (.remGetStatisticResult s v)
  | .remLockFailed, .none => some .remLockFailed
  | .remOcdTripped, .none => some .remOcdTripped
  | .remPing, .sequence n => some (.remPing n)
  | _, _ => none

end Sys2Proof

namespace Sys2Proof.Machine

/-- `cat(kind)` (R94): the parameter catalog for the parameter messages, the statistic catalog for the statistic ones; the
other kinds name no entry. -/
def catalogOf (cfg : Config) : Kind → Catalog
  | .ctlGetParameter | .ctlSetParameter | .remGetParameterResult => cfg.paramCatalog
  | .ctlGetStatistic | .remGetStatisticResult => cfg.statCatalog
  | .ctlSetDebugLed | .ctlResetStatistics | .ctlKeepAlive | .ctlRun | .ctlStop | .ctlPing | .remLockFailed
  | .remOcdTripped | .remPing => []

/-- `DecodePayload(kind, fmt, p)` (R94) on the payload bytes of a drained frame: the payload or the error kind. `none` for
bytes that do not fill the format, which a drained frame of a well-formed entry never has. -/
def decodePayload (cfg : Config) (b : Buf) (draw : Nat) (k : Kind) (fmt : Format) (p : List Byte) :
    Option (Except ErrorKind Payload) :=
  match fmt, p with
  | .f0, _ => some (.ok .none)
  | .fb, p1 :: _ => some (.ok (.flag (decodeBool p1)))
  | .fi, p1 :: _ =>
    match lookupId (catalogOf cfg k) p1 with
    | none => some (.error .unknownCatalogId)
    | some e => some (.ok (.ident e.name))
  | .fv, p1 :: p2 :: p3 :: _ =>
    match lookupId (catalogOf cfg k) p1 with
    | none => some (.error .unknownCatalogId)
    | some e =>
      match decodeValue e.kind (wireField cfg.markedPolicy b draw p2 p3) with
      | none => some (.error .invalidEnumeratedValue)
      | some v => some (.ok (.value e.name v))
  | .fs, p1 :: p2 :: p3 :: p4 :: _ => some (.ok (.sequence (sequenceField cfg.markedPolicy b draw p1 p2 p3 p4)))
  | .fb, _ | .fi, _ | .fv, _ | .fs, _ => none

/-- `EncodePayload(fmt, M)` (R102): the payload bytes, `none` when the message is no operand of `ENCODE` (R98). -/
def encodePayload (c : Catalog) : Payload → Option (List Byte)
  | .none => some []
  | .flag f => some [encodeBool f]
  | .ident e => (entryNamed c e).map fun x => [idByte x]
  | .value e v =>
    match entryNamed c e with
    | none => none
    | some x => (encodeValue x.kind v).map fun w => idByte x :: split14 w
  | .sequence s => some (split28 s)

end Sys2Proof.Machine
end

