-- ==== Sys2Proof/Machine/Flags.lean ====
section
/-! DEFINITION. There are no stored flags (R25). The status a caller can read, computed from `count` (R25, R76, R77), the
numbers of operations, outcomes and error kinds (R147, R163), and the port view of a result (R80, R97, R105). -/

namespace Sys2Proof.Machine

/-- `COUNT(B)`, also the port `count_o` (R76, R80). -/
def Ring.countValue (B : Ring) : Nat := B.count

/-- `FREE(B) = N - B.count`, also the port `free_o` (R77, R80). -/
def Ring.freeValue (N : Nat) (B : Ring) : Nat := N - B.count

/-- `EMPTY(B)` (R25). -/
def Ring.isEmpty (B : Ring) : Bool := B.count == 0

/-- `FULL(B)` (R25). -/
def Ring.isFull (N : Nat) (B : Ring) : Bool := B.count == N

/-- The code of an error kind (R147), in the two bits of `err_o` (R97). -/
def errorCode : ErrorKind → BitVec 2
  | .unknownFrameType => 0#2
  | .unknownCatalogId => 1#2
  | .invalidEnumeratedValue => 2#2
  | .bufferFull => 3#2

/-- The poll outcome tag `kind_o` (R97, R147). -/
def pollCode : PollOutcome → BitVec 2
  | .pending => 0#2
  | .message _ => 1#2
  | .error _ => 2#2

/-- The select number of an operation (R163); a frame has none. -/
def opSelect : Instr → Option (BitVec 3)
  | .push _ _ => some 0#3
  | .pop _ => some 1#3
  | .peek _ => some 2#3
  | .count _ => some 3#3
  | .free _ => some 4#3
  | .decode _ _ => some 5#3
  | .encode _ _ => some 6#3
  | .ctlSetDebugLed _ _ | .ctlGetParameter _ _ | .ctlSetParameter _ _ _ | .ctlGetStatistic _ _ | .ctlResetStatistics _
  | .ctlKeepAlive _ | .ctlRun _ | .ctlStop _ | .ctlPing _ _ | .remGetParameterResult _ _ _
  | .remGetStatisticResult _ _ _ | .remLockFailed _ | .remOcdTripped _ | .remPing _ _ => none

/-- The one instance an instruction reads or writes (R15). -/
def bufOf : Instr → Buf
  | .ctlSetDebugLed b _ | .ctlGetParameter b _ | .ctlSetParameter b _ _ | .ctlGetStatistic b _ | .ctlResetStatistics b
  | .ctlKeepAlive b | .ctlRun b | .ctlStop b | .ctlPing b _ | .remGetParameterResult b _ _
  | .remGetStatisticResult b _ _ | .remLockFailed b | .remOcdTripped b | .remPing b _ | .push b _ | .pop b | .peek b
  | .count b | .free b | .decode b _ | .encode b _ => b

/-- The value a scaled value becomes on its way through the wire (R105, R128): `clamp(trunc(v * scale), lo, hi) / scale`; a
member stays what it is. -/
def carriedValue (c : Catalog) (e : String) (v : PhysValue) : PhysValue :=
  match entryNamed c e, v with
  | some x, .scaled q =>
    match x.kind with
    | .scaled scale _ lo hi => .scaled ((quantize scale lo hi q : Rat) / (scale : Rat))
    | .enum _ => v
  | _, _ => v

/-- The message a message becomes on its way through the wire (R105): scaled values are quantized, the rest is kept. -/
def carriedMessage (cfg : Config) : Message → Message
  | .ctlSetParameter p v => .ctlSetParameter p (carriedValue cfg.paramCatalog p v)
  | .remGetParameterResult p v => .remGetParameterResult p (carriedValue cfg.paramCatalog p v)
  | .remGetStatisticResult s v => .remGetStatisticResult s (carriedValue cfg.statCatalog s v)
  | m => m

/-- `dvalid` (R80) of the instance the last operation worked on, after a `POP` or `PEEK`: 1 with a byte, 0 for `Empty`. After
any other operation, and for the instance not addressed, the spec does not say what the port shows: the model gives no value
(DESIGN CHOICE, log 6). -/
def State.dvalid (s : State) : Option Bool :=
  match s.result with
  | .byte _ => some true
  | .empty => some false
  | .nothing | .number _ | .poll _ | .written _ => none

/-- `dout` (R80) of that instance: the byte while `dvalid` is 1; otherwise any value (U7), for which the model gives none
(log 6). -/
def State.dout (s : State) : Option Byte :=
  match s.result with
  | .byte x => some x
  | _ => none

/-- `count_o` of an instance (R80), driven continuously: R80 leaves to the implementation whether it is, and that it has a value
in every state is the model's choice (DESIGN CHOICE, log 6). -/
def State.countO (s : State) (b : Buf) : Nat := (s.ring b).countValue

/-- `free_o` of an instance (R80), driven continuously like `count_o` (DESIGN CHOICE, log 6). -/
def State.freeO (s : State) (b : Buf) : Nat := (s.ring b).freeValue (s.cap b)

/-- `kind_o` (R97), 2 bits, after a poll. Before any poll and after another operation R97 is silent: the model gives no value
(DESIGN CHOICE, log 6). -/
def State.kindO (s : State) : Option (BitVec 2) :=
  match s.result with
  | .poll o => some (pollCode o)
  | _ => none

/-- `err_o` (R97), 2 bits, meaningful when `kind_o` is 2; otherwise the model gives no value (log 6). -/
def State.errO (s : State) : Option (BitVec 2) :=
  match s.result with
  | .poll (.error k) => some (errorCode k)
  | _ => none

/-- `msg_o` (R97), meaningful when `kind_o` is 1; otherwise the model gives no value (log 6). -/
def State.msgO (s : State) : Option Message :=
  match s.result with
  | .poll (.message m) => some m
  | _ => none

/-- `ok_o` (R105, R147), after an `ENCODE`: 0 is `BufferFull`. After another operation the model gives no
value (log 6). -/
def State.okO (s : State) : Option Bool :=
  match s.result with
  | .written ok => some ok
  | _ => none

end Sys2Proof.Machine
end

