-- ==== Sys2Proof/Machine/Codec.lean ====
section
/-! DEFINITION. The meanings of `DECODE` (42_decode.md) and `ENCODE` (43_encode.md), written as the pseudocode of R87 and
R99. That a poll of a complete frame is the meaning of that frame's own instruction is a statement, not a definition. -/

namespace Sys2Proof.Machine

/-- The outcome of a drained frame (R94): the message its kind makes of the payload, or the error kind. `none` when the
payload does not fit the kind, which a well-formed table entry excludes. -/
def drainedOutcome (cfg : Config) (b : Buf) (draw : Nat) (row : TypeRow) (p : List Byte) : Option PollOutcome :=
  match decodePayload cfg b draw row.kind row.format p with
  | none => none
  | some (.error k) => some (.error k)
  | some (.ok q) => (row.kind.make q).map .message

/-- R87 from the type byte on: the entry `row` of the marked head byte is known and fits its format; `B` is the scanned
instance. -/
def pollFrame (s : State) (b : Buf) (dir : Dir) (row : TypeRow) (B : Ring) : Answer :=
  if B.count < row.length then finish s b B (.poll .pending)
  else
    match B.drain b (s.cap b) row.length with
    | (bytes, B') =>
      match drainedOutcome s.cfg b B.draws row bytes.tail with
      | none => .refused (.illFormedTable dir)
      | some o => finish s b (B'.drawn (frameDraws s.cfg.markedPolicy row.format bytes.tail)) (.poll o)

/-- `DECODE B, dir`: one poll (R87). -/
def execDecode (b : Buf) (dir : Dir) (s : State) : Answer :=
  live s b fun B0 =>
    match (B0.scan b (s.cap b)).peek b (s.cap b) with
    | none => finish s b (B0.scan b (s.cap b)) (.poll .pending)
    | some h =>
      match s.cfg.lookupType dir (groupOf h) with
      | none => finish s b (B0.scan b (s.cap b)).popped (.poll (.error .unknownFrameType))
      | some row =>
        if row.ok dir then pollFrame s b dir row (B0.scan b (s.cap b)) else .refused (.illFormedTable dir)

/-- `ENCODE B, dir, M` (R99): all or nothing (R100). -/
def execEncode (b : Buf) (m : Message) (s : State) : Answer :=
  live s b fun B =>
    match s.cfg.entryOf m.kind with
    | none => .refused (.illFormedTable m.kind.dir)
    | some row =>
      if row.ok m.kind.dir then
        match encodePayload (catalogOf s.cfg m.kind) m.payload with
        | none => .refused .notAnOperand
        | some q =>
          if B.freeValue (s.cap b) < row.length then finish s b B (.written false)
          else finish s b (B.pushAll b (s.cap b) (typeByte row.code :: q)) (.written true)
      else .refused (.illFormedTable m.kind.dir)

end Sys2Proof.Machine
end

