-- ==== Sys2Proof/Machine/CtlFrames.lean ====
section
/-! DEFINITION. The meanings of the controller-bound frames (45_messages_controller_bound.md): what a poll does with the
frame at the head of `b`. What a command makes the controller do is outside the block (R129). -/

namespace Sys2Proof.Machine

/-- `CTL.SetDebugLed` (R130). -/
def execCtlSetDebugLed (b : Buf) (p : Byte) (s : State) : Answer :=
  acceptFrame s b Kind.ctlSetDebugLed.length (.message (.ctlSetDebugLed (decodeBool p)))

/-- `CTL.GetParameter` (R131). -/
def execCtlGetParameter (b : Buf) (k : Byte) (s : State) : Answer :=
  acceptFrame s b Kind.ctlGetParameter.length (identOutcome s.cfg.paramCatalog k .ctlGetParameter)

/-- `CTL.SetParameter` (R132). -/
def execCtlSetParameter (b : Buf) (k : Byte) (w : BitVec 14) (s : State) : Answer :=
  acceptFrame s b Kind.ctlSetParameter.length (valueOutcome s.cfg.paramCatalog k w .ctlSetParameter)

/-- `CTL.GetStatistic` (R133). -/
def execCtlGetStatistic (b : Buf) (k : Byte) (s : State) : Answer :=
  acceptFrame s b Kind.ctlGetStatistic.length (identOutcome s.cfg.statCatalog k .ctlGetStatistic)

/-- `CTL.ResetStatistics` (R134). -/
def execCtlResetStatistics (b : Buf) (s : State) : Answer :=
  acceptFrame s b Kind.ctlResetStatistics.length (.message .ctlResetStatistics)

/-- `CTL.KeepAlive` (R135): no effect inside the block beyond the message. -/
def execCtlKeepAlive (b : Buf) (s : State) : Answer :=
  acceptFrame s b Kind.ctlKeepAlive.length (.message .ctlKeepAlive)

/-- `CTL.Run` (R136). -/
def execCtlRun (b : Buf) (s : State) : Answer :=
  acceptFrame s b Kind.ctlRun.length (.message .ctlRun)

/-- `CTL.Stop` (R137). -/
def execCtlStop (b : Buf) (s : State) : Answer :=
  acceptFrame s b Kind.ctlStop.length (.message .ctlStop)

/-- `CTL.Ping` (R138). -/
def execCtlPing (b : Buf) (n : BitVec 28) (s : State) : Answer :=
  acceptFrame s b Kind.ctlPing.length (.message (.ctlPing n))

end Sys2Proof.Machine
end

