-- ==== Sys2Proof/Machine/RemFrames.lean ====
section
/-! DEFINITION. The meanings of the remote-bound frames (46_messages_remote_bound.md): what a poll does with the frame at
the head of `b`. The block does not pair results with commands (R139). -/

namespace Sys2Proof.Machine

/-- `REM.GetParameterResult` (R140). -/
def execRemGetParameterResult (b : Buf) (k : Byte) (w : BitVec 14) (s : State) : Answer :=
  acceptFrame s b Kind.remGetParameterResult.length (valueOutcome s.cfg.paramCatalog k w .remGetParameterResult)

/-- `REM.GetStatisticResult` (R141). -/
def execRemGetStatisticResult (b : Buf) (k : Byte) (w : BitVec 14) (s : State) : Answer :=
  acceptFrame s b Kind.remGetStatisticResult.length (valueOutcome s.cfg.statCatalog k w .remGetStatisticResult)

/-- `REM.LockFailed` (R142). -/
def execRemLockFailed (b : Buf) (s : State) : Answer :=
  acceptFrame s b Kind.remLockFailed.length (.message .remLockFailed)

/-- `REM.OcdTripped` (R143). -/
def execRemOcdTripped (b : Buf) (s : State) : Answer :=
  acceptFrame s b Kind.remOcdTripped.length (.message .remOcdTripped)

/-- `REM.Ping` (R144). -/
def execRemPing (b : Buf) (n : BitVec 28) (s : State) : Answer :=
  acceptFrame s b Kind.remPing.length (.message (.remPing n))

end Sys2Proof.Machine
end

