-- ==== Sys2Proof/Machine/RingBuffer.lean ====
section
/-! DEFINITION. The meanings of the five ring-buffer operations (40_ringbuffer.md). Each is one step (R41) and none of them
returns an error (R71). -/

namespace Sys2Proof.Machine

/-- `PUSH B, x` (R72); on a full instance R73. It returns nothing (R13). -/
def execPush (b : Buf) (x : Byte) (s : State) : Answer :=
  live s b fun B => finish s b (B.push b (s.cap b) x) .nothing

/-- `POP B` (R74): `Byte` of the oldest byte, removed; or `Empty`, nothing changed. -/
def execPop (b : Buf) (s : State) : Answer :=
  live s b fun B =>
    match B.pop b (s.cap b) with
    | (none, B') => finish s b B' .empty
    | (some x, B') => finish s b B' (.byte x)

/-- `PEEK B` (R75): `Byte` of the oldest byte, kept; or `Empty`. -/
def execPeek (b : Buf) (s : State) : Answer :=
  live s b fun B =>
    match B.peek b (s.cap b) with
    | none => finish s b B .empty
    | some x => finish s b B (.byte x)

/-- `COUNT B` (R76). -/
def execCount (b : Buf) (s : State) : Answer :=
  live s b fun B => finish s b B (.number B.countValue)

/-- `FREE B` (R77). -/
def execFree (b : Buf) (s : State) : Answer :=
  live s b fun B => finish s b B (.number (B.freeValue (s.cap b)))

end Sys2Proof.Machine
end

