-- ==== Sys2Proof/Machine/Dispatch.lean ====
section
/-! DEFINITION. One arm per instruction. -/

namespace Sys2Proof.Machine

def exec (i : Instr) (s : State) : Host.Outcome State Fault Refusal :=
  match i with
  | .ctlSetDebugLed b p => Sys2Proof.Machine.execCtlSetDebugLed b p s
  | .ctlGetParameter b k => Sys2Proof.Machine.execCtlGetParameter b k s
  | .ctlSetParameter b k w => Sys2Proof.Machine.execCtlSetParameter b k w s
  | .ctlGetStatistic b k => Sys2Proof.Machine.execCtlGetStatistic b k s
  | .ctlResetStatistics b => Sys2Proof.Machine.execCtlResetStatistics b s
  | .ctlKeepAlive b => Sys2Proof.Machine.execCtlKeepAlive b s
  | .ctlRun b => Sys2Proof.Machine.execCtlRun b s
  | .ctlStop b => Sys2Proof.Machine.execCtlStop b s
  | .ctlPing b n => Sys2Proof.Machine.execCtlPing b n s
  | .remGetParameterResult b k w => Sys2Proof.Machine.execRemGetParameterResult b k w s
  | .remGetStatisticResult b k w => Sys2Proof.Machine.execRemGetStatisticResult b k w s
  | .remLockFailed b => Sys2Proof.Machine.execRemLockFailed b s
  | .remOcdTripped b => Sys2Proof.Machine.execRemOcdTripped b s
  | .remPing b n => Sys2Proof.Machine.execRemPing b n s
  | .push b x => Sys2Proof.Machine.execPush b x s
  | .pop b => Sys2Proof.Machine.execPop b s
  | .peek b => Sys2Proof.Machine.execPeek b s
  | .count b => Sys2Proof.Machine.execCount b s
  | .free b => Sys2Proof.Machine.execFree b s
  | .decode b dir => Sys2Proof.Machine.execDecode b dir s
  | .encode b m => Sys2Proof.Machine.execEncode b m s

end Sys2Proof.Machine
end

