-- ==== Sys2Proof/Machine/Fetch.lean ====
section
/-! DEFINITION. How the next operation is found: the schedule (R10, R41) stands in the place of an instruction stream
(R24: there is no program counter and no fetch), and a poll finds its frame at the head of a buffer (R59). -/

namespace Sys2Proof.Machine

/-- The device once the event at the head of the schedule is taken. -/
def State.taken (s : State) : State := { s with schedule := s.schedule.tail }

/-- The device after the environment resets one instance (R167). -/
def State.restart (s : State) (b : Buf) : State := s.setRing b (s.ring b).restarted

/-- The frame a poll of `b` would decode, and the device as it stands when the frame's own instruction runs: scanned, the
frame still at the head, and the free value of an open field taken (R87; log 7). -/
def fetchFrame (s : State) (b : Buf) (dir : Dir) : Except DecodeError (Instr × State) :=
  let N := s.cap b
  let B := (s.ring b).scan b N
  match decodeFrame s.cfg B.draws b dir (B.queue b N) with
  | .error e => .error e
  | .ok i =>
    let row := s.cfg.lookupType dir (groupOf ((B.queue b N).headD 0#8))
    let n := match row with
      | none => 0
      | some r => frameDraws s.cfg.markedPolicy r.format (((B.queue b N).take r.length).tail)
    .ok (i, s.setRing b (B.drawn n))

/-- An instance freshly created and loaded with the given bytes, one `PUSH` each. -/
def Ring.loaded (b : Buf) (N : Nat) (bytes : List Byte) : Ring := Ring.reset.pushAll b N bytes

/-- The frame a type byte announces, cut from bytes that may run longer (R59). -/
def frameBytes (cfg : Config) (dir : Dir) (bytes : List Byte) : List Byte :=
  match cfg.lookupType dir (groupOf (bytes.headD 0#8)) with
  | none => bytes.take 1
  | some row => bytes.take row.length

/-- The device with the instruction of a table word next (log 9). A marked first byte is a type byte: RXB is created anew
holding just that frame, and a poll of it in this end's receiving direction is the next event. Any other byte is a select
number: the request it stands for is the next event. -/
def placeWord (s : State) (nbits w : Nat) : State :=
  if (tableByte nbits w 0).marked then
    { s with
      rxb := Ring.loaded .rxb s.cfg.nRx (frameBytes s.cfg s.cfg.role.receives (tableBytes nbits w))
      schedule := .request { Request.idle 5#3 .rxb with dir := s.cfg.role.receives } :: s.schedule }
  else
    match requestOfByte s.cfg.role (tableByte nbits w 0) with
    | none => s
    | some r => { s with schedule := .request r :: s.schedule }

end Sys2Proof.Machine
end

