-- ==== Sys2Proof/Machine/Step.lean ====
section
/-! DEFINITION. One step: one whole operation (R38, R41), or one environment reset (R167), or nothing when nobody asks for
anything (R182: the block has no halt). -/

namespace Sys2Proof.Machine

/-- The next event of the schedule is taken and performed. A request that selects no operation (7) performs none (R163,
U12). -/
def step (s : State) : Host.Outcome State Fault Refusal :=
  match s.schedule with
  | [] => .next s
  | .reset b :: _ => .next (s.taken.restart b)
  | .request r :: _ =>
    match decodeRequest r with
    | .error _ => .next s.taken
    | .ok i => exec i s.taken

/-- See `placeWord`. -/
def State.withFetchWord (s : State) (nbits w : Nat) : State := placeWord s nbits w

end Sys2Proof.Machine
end

