-- ==== Sys2Proof/Safety.lean ====
section
/-! DEFINITION. What the surroundings must do and what counts as a safe run, in the terms the claims use: agents and their
roles (R10, R43, R183), the named premises (R186), the invariant of an instance (R20), quiescent and drained devices (R182),
and when two devices are observably the same (R30). -/

namespace Sys2Proof.Machine

/-! ## Agents -/

/-- The four agents that invoke operations (R10). -/
inductive Agent where
  | receiveTransport | decoderCaller | encoderCaller | transmitTransport
deriving DecidableEq, Repr

/-- The operations an agent's role lets it invoke on a device of the given role (R43, R183). The block does not check it. -/
def Agent.mayInvoke (role : Role) : Agent → Instr → Bool
  | .receiveTransport, .push .rxb _ => true
  | .receiveTransport, .free .rxb => true
  | .decoderCaller, .decode .rxb dir => dir == role.receives
  | .decoderCaller, .pop .rxb => true
  | .decoderCaller, .peek .rxb => true
  | .decoderCaller, .count .rxb => true
  | .encoderCaller, .encode .txb m => m.kind.dir == role.sends
  | .encoderCaller, .free .txb => true
  | .transmitTransport, .pop .txb => true
  | .transmitTransport, .peek .txb => true
  | .transmitTransport, .count .txb => true
  | _, _ => false

/-- Every request of the schedule is one some agent may make (R43, R183). -/
def State.inRole (s : State) : Bool :=
  s.schedule.all fun e =>
    match e with
    | .reset _ => true
    | .request r =>
      match decodeRequest r with
      | .error _ => true
      | .ok i =>
        [Agent.receiveTransport, .decoderCaller, .encoderCaller, .transmitTransport].any fun a => a.mayInvoke s.cfg.role i

/-! ## Premises (R186) -/

/-- `FreshInstance(B)` (R186). -/
def Ring.Fresh (B : Ring) : Prop := B.count = 0 ∧ B.fault = false

/-- `NoFault(B)` (R186). -/
abbrev State.Live (s : State) (b : Buf) : Prop := (s.ring b).fault = false

/-- `WellSized(B, T)` (R186, R170). -/
def WellSized (N : Nat) (t : TypeTable) : Prop := ∀ row ∈ t, row.length ≤ N

/-- `TablesAgree` (R186, R169) of the configurations of the two ends. -/
def TablesAgree (c d : Config) : Prop :=
  c.ctlTable = d.ctlTable ∧ c.remTable = d.remTable ∧ c.paramCatalog = d.paramCatalog ∧ c.statCatalog = d.statCatalog

/-- The next event keeps the push contract: a `PUSH` only where `FREE >= 1` (R72, R171, R172). -/
def State.gated (s : State) : Bool :=
  match s.schedule with
  | .request r :: _ =>
    match decodeRequest r with
    | .ok (.push b _) => decide ((s.ring b).count < s.cap b)
    | _ => true
  | _ => true

/-- The next event gives `ENCODE` a message that is an operand of it (R98). -/
def State.operandsOk (s : State) : Bool :=
  match s.schedule with
  | .request r :: _ =>
    match decodeRequest r with
    | .ok (.encode _ m) => m.wf s.cfg
    | _ => true
  | _ => true

/-! ## What operations leave -/

/-- The device after a poll of `b` that leaves `c` bytes, takes `n` free values and returns `o`: `wcur`, storage and the mark
of `b` and everything of the other instance stand as before (R16 to R18). -/
def State.polled (s : State) (b : Buf) (c n : Nat) (o : PollOutcome) : State :=
  (s.setRing b { s.ring b with count := c, draws := (s.ring b).draws + n }).setResult (.poll o)

/-- The storage indices an instruction stores to, in the instance it works on (R16: only `PUSH` writes storage, directly or
inside `ENCODE`): the cursor of a `PUSH`, the next `L` positions of an `ENCODE` that fits. -/
def storedIndices (s : State) : Instr → List Nat
  | .push b _ => [(s.ring b).wcur % s.cap b]
  | .encode b m =>
    if (s.ring b).freeValue (s.cap b) < m.kind.length then []
    else (List.range m.kind.length).map fun k => ((s.ring b).wcur + k) % s.cap b
  | .ctlSetDebugLed _ _ | .ctlGetParameter _ _ | .ctlSetParameter _ _ _ | .ctlGetStatistic _ _ | .ctlResetStatistics _
  | .ctlKeepAlive _ | .ctlRun _ | .ctlStop _ | .ctlPing _ _ | .remGetParameterResult _ _ _
  | .remGetStatisticResult _ _ _ | .remLockFailed _ | .remOcdTripped _ | .remPing _ _ | .pop _ | .peek _ | .count _
  | .free _ | .decode _ _ => []

/-! ## Invariants -/

/-- What holds of an instance of capacity `N` (R16 to R20): storage is in its canonical form and inside `0..N-1`; and, while
the contract has not been violated, `count` and `wcur` are in their ranges and every occupied element has been written. -/
structure Ring.Inv (N : Nat) (B : Ring) : Prop where
  canonical : B.storage.wf = true
  inRange   : ∀ p ∈ B.storage, p.1 < N
  countLe   : B.fault = false → B.count ≤ N
  cursorLt  : B.fault = false → B.wcur < N
  written   : B.fault = false → ∀ k < B.count, (B.storage.read (B.slot N k)).isSome = true

/-- The invariant of the device: both capacities are at least 1 and both instances satisfy theirs. -/
structure State.Inv (s : State) : Prop where
  sized : ∀ b, 1 ≤ s.cap b
  rings : ∀ b, (s.ring b).Inv (s.cap b)

/-! ## End of a run (R182) -/

/-- No agent intends a further operation. -/
def State.quiescent (s : State) : Prop := s.schedule = []

/-- Quiescent, the transmit buffer empty, and a poll of the receive buffer would return `Pending` and change nothing but the
result port. Nothing is said of bytes on the wire (R182). -/
def State.drained (s : State) : Prop :=
  s.quiescent ∧ s.txb.count = 0 ∧
    exec (.decode .rxb s.cfg.role.receives) s = .next (s.setResult (.poll .pending))

/-! ## Observation (R30) -/

/-- Two instances no operation distinguishes (R30): the same fault mark, the same free values still to be drawn (log 7), and,
unless faulted, the same queue (R78). Cursors, element positions and free elements may differ. -/
def Ring.Same (b : Buf) (N : Nat) (B C : Ring) : Prop :=
  B.fault = C.fault ∧ B.draws = C.draws ∧ (B.fault = false → B.queue b N = C.queue b N)

/-- Two devices no sequence of operations distinguishes (R30). -/
def State.Same (s t : State) : Prop :=
  s.cfg = t.cfg ∧ s.result = t.result ∧ s.schedule = t.schedule ∧
    ∀ b, Ring.Same b (s.cap b) (s.ring b) (t.ring b)

/-- Two answers no observer distinguishes: next states that are the same to observers, or the same stop. -/
def sameAnswer : Answer → Answer → Prop
  | .next s, .next t => s.Same t
  | .fault f, .fault g => f = g
  | .refused r, .refused q => r = q
  | _, _ => False

end Sys2Proof.Machine
end

