-- ==== Sys2Proof/Certificates/Slice0/Obligations.lean ====
section
/-! DEFINITION. The statements for the provers. Each quantifies over the whole state, so over every configuration: no
statement but the sample words rests on REF (R8). -/

open Sys2Proof Sys2Proof.Machine

/-! ## Reset -/

/-- R166 (last sentence) and R29 for `count` and `fault`: in every configuration a freshly constructed device has both
instances empty and unfaulted, and the first operation on either answers as the rule says. `wcur = 0` is the spec's own
choice (D5). -/
def Obligations.FreshDeviceIsEmpty : Prop :=
  ∀ (cfg : Config) (b : Buf) (dir : Dir),
    let s := State.resetWith cfg
    (s.ring b).count = 0 ∧ (s.ring b).wcur = 0 ∧ (s.ring b).fault = false ∧
    exec (.count b) s = .next (s.setResult (.number 0)) ∧
    exec (.free b) s = .next (s.setResult (.number (cfg.capacity b))) ∧
    exec (.peek b) s = .next (s.setResult .empty) ∧
    exec (.pop b) s = .next (s.setResult .empty) ∧
    exec (.decode b dir) s = .next (s.setResult (.poll .pending))

/-- R167 (the spec's optional environment step, D34): a reset of one instance returns it to the reset state, storage
unwritten, and leaves the other instance and the configuration. -/
def Obligations.RunTimeResetEmptiesOneBuffer : Prop :=
  ∀ (s : State) (b c : Buf) (rest : List Event), s.schedule = .reset b :: rest →
    ∃ t, step s = .next t ∧ (t.ring b).count = 0 ∧ (t.ring b).wcur = 0 ∧ (t.ring b).fault = false ∧
      (∀ i, (t.ring b).storage.read i = none) ∧ (c ≠ b → t.ring c = s.ring c) ∧
      t.cfg = s.cfg ∧ t.result = s.result ∧ t.schedule = rest

/-! ## The ring-buffer operations -/

/-- R72: a push on an instance that is not full completes; it writes the element at the cursor, advances the cursor modulo
`N`, counts one more, and changes nothing else. -/
def Obligations.PushWritesAtTheCursor : Prop :=
  ∀ (s : State) (b : Buf) (x : Byte), s.Live b → (s.ring b).count < s.cap b →
    ∃ t, exec (.push b x) s = .next t ∧ t.result = .nothing ∧
      (t.ring b).wcur = ((s.ring b).wcur + 1) % s.cap b ∧
      (t.ring b).count = (s.ring b).count + 1 ∧
      (t.ring b).fault = false ∧ (t.ring b).epoch = (s.ring b).epoch ∧ (t.ring b).draws = (s.ring b).draws ∧
      (t.ring b).storage.read ((s.ring b).wcur % s.cap b) = some x ∧
      (t.ring b).element b (s.cap b) ((s.ring b).wcur % s.cap b) = x ∧
      (∀ i, i ≠ (s.ring b).wcur % s.cap b → (t.ring b).storage.read i = (s.ring b).storage.read i) ∧
      (∀ c, c ≠ b → t.ring c = s.ring c) ∧ t.cfg = s.cfg ∧ t.schedule = s.schedule

/-- R73 and R22 (the mark is the spec's own, D10): a push on a full instance completes, its one certain write lands on the
cursor, the mark is set, and the other instance is untouched. Nothing is said of `count`, `wcur` and the other elements: they
are free values. -/
def Obligations.PushOnFullSetsTheFaultMark : Prop :=
  ∀ (s : State) (b : Buf) (x : Byte), s.Live b → (s.ring b).count = s.cap b →
    ∃ t, exec (.push b x) s = .next t ∧ t.result = .nothing ∧ (t.ring b).fault = true ∧
      (t.ring b).storage.read ((s.ring b).wcur % s.cap b) = some x ∧
      (∀ c, c ≠ b → t.ring c = s.ring c) ∧ t.cfg = s.cfg ∧ t.schedule = s.schedule

/-- R22 with log 11 (the model's choice of a stop): on a faulted instance every instruction stops by name. -/
def Obligations.FaultedBufferStopsEveryInstruction : Prop :=
  ∀ (i : Instr) (s : State), (s.ring (bufOf i)).fault = true → exec i s = .fault (.ringFaulted (bufOf i))

/-- R74: `POP` completes in every live instance. Empty: `Empty`, nothing else changes. Otherwise it returns the byte written at
`(wcur - count) mod N` and writes `count` alone: the cursor and the element read stay. Its select number is 1. -/
def Obligations.PopReturnsTheOldestByte : Prop :=
  (∀ b, opSelect (.pop b) = some 1#3) ∧
  ∀ (s : State) (b : Buf), s.Live b →
    ((s.ring b).count = 0 → exec (.pop b) s = .next (s.setResult .empty)) ∧
    (0 < (s.ring b).count →
      exec (.pop b) s = .next ((s.setRing b { s.ring b with count := (s.ring b).count - 1 }).setResult
        (.byte ((s.ring b).written b ((((s.ring b).wcur : Int) - (s.ring b).count) % (s.cap b : Int)).toNat))))

/-- R75: `PEEK` completes in every live instance with what `POP` would return and changes nothing but the result port; a
`POP` right after it returns the same. Its select number is 2. -/
def Obligations.PeekKeepsTheOldestByte : Prop :=
  (∀ b, opSelect (.peek b) = some 2#3) ∧
  ∀ (s : State) (b : Buf), s.Live b →
    ((s.ring b).count = 0 → exec (.peek b) s = .next (s.setResult .empty)) ∧
    (0 < (s.ring b).count →
      exec (.peek b) s = .next (s.setResult
        (.byte ((s.ring b).written b ((((s.ring b).wcur : Int) - (s.ring b).count) % (s.cap b : Int)).toNat)))) ∧
    ∃ t u, exec (.peek b) s = .next t ∧ exec (.pop b) t = .next u ∧ u.result = t.result

/-- R76, R77: `COUNT` and `FREE` complete in every live instance, return `count` and `N - count`, change nothing but the
result port, sum to `N` while the instance keeps its bound, and `FREE` is 0 exactly on a full instance; `COUNT` is 0 after
reset. Their select numbers are 3 and 4. -/
def Obligations.CountAndFreeAreExact : Prop :=
  (∀ b, opSelect (.count b) = some 3#3 ∧ opSelect (.free b) = some 4#3) ∧
  (∀ (cfg : Config) (b : Buf), ∃ t, exec (.count b) (State.resetWith cfg) = .next t ∧ t.result = .number 0) ∧
  ∀ (s : State) (b : Buf), s.Live b →
    exec (.count b) s = .next (s.setResult (.number (s.ring b).count)) ∧
    exec (.free b) s = .next (s.setResult (.number (s.cap b - (s.ring b).count))) ∧
    ((s.ring b).count ≤ s.cap b →
      (s.cap b - (s.ring b).count) + (s.ring b).count = s.cap b ∧
      (s.cap b - (s.ring b).count = 0 ↔ (s.ring b).count = s.cap b))

/-- R78, R42(a): a live instance of capacity at least 1 is a queue bounded by `N`. The five operations are the queue's
operations, whatever the cursor and wherever the bytes stand. -/
def Obligations.RingRefinesABoundedQueue : Prop :=
  ∀ (s : State) (b : Buf) (q : List Byte), s.Live b → 1 ≤ s.cap b → (s.ring b).queue b (s.cap b) = q →
    exec (.count b) s = .next (s.setResult (.number q.length)) ∧
    exec (.free b) s = .next (s.setResult (.number (s.cap b - q.length))) ∧
    exec (.peek b) s = .next (s.setResult (match q with | [] => .empty | x :: _ => .byte x)) ∧
    (∃ t, exec (.pop b) s = .next t ∧ t.result = (match q with | [] => .empty | x :: _ => .byte x) ∧
      t.Live b ∧ (t.ring b).queue b (t.cap b) = q.tail) ∧
    (∀ x, q.length < s.cap b →
      ∃ t, exec (.push b x) s = .next t ∧ t.Live b ∧ (t.ring b).queue b (t.cap b) = q ++ [x])

/-- R42(a) on whole bursts: any bytes that fit, pushed into an empty instance, come back in order, each once, and the
cursor has advanced by their number modulo `N`. -/
def Obligations.BurstsComeBackInOrder : Prop :=
  ∀ (b : Buf) (N : Nat) (B : Ring) (xs : List Byte), 1 ≤ N → B.wcur < N → B.Fresh → xs.length ≤ N →
    (Ring.drain b N xs.length (B.pushAll b N xs)).1 = xs ∧
    (Ring.drain b N xs.length (B.pushAll b N xs)).2.Fresh ∧
    (Ring.drain b N xs.length (B.pushAll b N xs)).2.wcur = (B.wcur + xs.length) % N

/-- R30: a step does not distinguish devices that differ in cursors, in where the queued bytes stand, or in free elements: the
answers are the same to every observer, and stay so. -/
def Obligations.CursorsAndFreeElementsAreUnobservable : Prop :=
  ∀ (s t : State), (∀ b, 1 ≤ s.cap b) → s.Same t → sameAnswer (step s) (step t)

/-! ## The poll -/

/-- R82 with R83: a scan of any instance drops exactly the longest unmarked prefix of its queue, stops at an empty queue or a
marked head, and writes `count` alone. -/
def Obligations.ScanDropsTheGarbagePrefix : Prop :=
  ∀ (b : Buf) (N : Nat) (B : Ring), 1 ≤ N →
    (B.scan b N).queue b N = (B.queue b N).dropWhile (fun x => !x.marked) ∧
    B.scan b N = { B with count := (B.scan b N).count } ∧
    (∀ x ∈ ((B.scan b N).queue b N).head?, x.marked = true)

/-- R88, with R65 for every unmarked byte: a poll of a buffer that holds no marked byte, an empty one among them, completes
with `Pending` and leaves it empty. -/
def Obligations.PollOfGarbageIsPending : Prop :=
  ∀ (s : State) (b : Buf) (dir : Dir), s.Live b → 1 ≤ s.cap b →
    (∀ x ∈ (s.ring b).queue b (s.cap b), x.marked = false) →
    exec (.decode b dir) s = .next (s.polled b 0 0 .pending)

/-- R90, R64: a marked head byte whose code the direction's table lacks costs the garbage before it and exactly itself,
however many bytes follow, and those stay; the poll completes with `UnknownFrameType`. -/
def Obligations.UnknownTypeCodeCostsOneByte : Prop :=
  ∀ (s : State) (b : Buf) (dir : Dir) (g rest : List Byte) (h : Byte), s.Live b → 1 ≤ s.cap b →
    (s.ring b).queue b (s.cap b) = g ++ h :: rest → (∀ x ∈ g, x.marked = false) → h.marked = true →
    s.cfg.lookupType dir (groupOf h) = none →
    exec (.decode b dir) s = .next (s.polled b rest.length 0 (.error .unknownFrameType)) ∧
    ((s.polled b rest.length 0 (.error .unknownFrameType)).ring b).queue b (s.cap b) = rest

/-- R91: a known head byte with fewer bytes than its length keeps the poll `Pending`; the partial frame stays whole (the
garbage before it is gone, R96). -/
def Obligations.IncompleteFrameWaits : Prop :=
  ∀ (s : State) (b : Buf) (dir : Dir) (g rest : List Byte) (h : Byte) (row : TypeRow), s.Live b → 1 ≤ s.cap b →
    (s.ring b).queue b (s.cap b) = g ++ h :: rest → (∀ x ∈ g, x.marked = false) → h.marked = true →
    s.cfg.lookupType dir (groupOf h) = some row → row.ok dir = true → rest.length + 1 < row.length →
    exec (.decode b dir) s = .next (s.polled b (rest.length + 1) 0 .pending) ∧
    ((s.polled b (rest.length + 1) 0 .pending).ring b).queue b (s.cap b) = h :: rest

/-- R93: once the frame is complete the poll completes with a message or an error, never `Pending`, and consumes exactly the
garbage and the frame's length, whether or not its values are valid: an id its catalog lacks is `UnknownCatalogId`, an
enumerated entry without the value is `InvalidEnumeratedValue`, the whole frame consumed. -/
def Obligations.CompleteFrameIsConsumedWhole : Prop :=
  ∀ (s : State) (b : Buf) (dir : Dir) (g rest : List Byte) (h : Byte) (row : TypeRow), s.Live b → 1 ≤ s.cap b →
    (s.ring b).queue b (s.cap b) = g ++ h :: rest → (∀ x ∈ g, x.marked = false) → h.marked = true →
    s.cfg.lookupType dir (groupOf h) = some row → row.ok dir = true → row.length ≤ rest.length + 1 →
    ∃ n o, o ≠ .pending ∧ exec (.decode b dir) s = .next (s.polled b (rest.length + 1 - row.length) n o) ∧
      ((s.polled b (rest.length + 1 - row.length) n o).ring b).queue b (s.cap b) = (h :: rest).drop row.length ∧
      (∀ k p, row.format = .fi ∨ row.format = .fv → rest = k :: p → lookupId (catalogOf s.cfg row.kind) k = none →
        o = .error .unknownCatalogId) ∧
      (∀ k p0 p1 p e members, row.format = .fv → rest = k :: p0 :: p1 :: p →
        lookupId (catalogOf s.cfg row.kind) k = some e → e.kind = .enum members →
        (∀ m, (wireField s.cfg.markedPolicy b (s.ring b).draws p0 p1, m) ∉ members) →
        o = .error .invalidEnumeratedValue)

/-- R87 and R94 against R130 to R144: where a poll finds a whole frame, the poll is that frame's own instruction, run on the
device scanned up to it. -/
def Obligations.PollIsTheFramesOwnInstruction : Prop :=
  ∀ (s u : State) (b : Buf) (dir : Dir) (i : Instr), s.Live b → 1 ≤ s.cap b →
    fetchFrame s b dir = .ok (i, u) → exec (.decode b dir) s = exec i u

/-- R59, R89: no known and complete frame is refused: the frame decoder gives an instruction on the polled buffer, and the
device it runs on differs from the polled one only by the garbage scanned away and the free values taken. -/
def Obligations.KnownCompleteFramesAreFetched : Prop :=
  ∀ (s : State) (b : Buf) (dir : Dir) (g rest : List Byte) (h : Byte) (row : TypeRow), 1 ≤ s.cap b →
    (s.ring b).queue b (s.cap b) = g ++ h :: rest → (∀ x ∈ g, x.marked = false) → h.marked = true →
    s.cfg.lookupType dir (groupOf h) = some row → row.ok dir = true → row.length ≤ rest.length + 1 →
    ∃ i n, bufOf i = b ∧ opSelect i = none ∧
      fetchFrame s b dir = .ok (i, s.setRing b { s.ring b with count := rest.length + 1, draws := (s.ring b).draws + n })

/-- R86, R181: with well-formed tables a poll of a live instance always completes; it consumes bytes only, lowering `count`,
and its message is of the polled direction and its error one of the three of R86. -/
def Obligations.EveryPollAnswers : Prop :=
  ∀ (s : State) (b : Buf) (dir : Dir), s.cfg.wf = true → s.Live b →
    ∃ c n o, exec (.decode b dir) s = .next (s.polled b c n o) ∧ c ≤ (s.ring b).count ∧ o ≠ .error .bufferFull ∧
      ∀ m, o = .message m → m.kind.dir = dir

/-- R170 (last sentence): with room for the longest frame, a poll of a full receive buffer always removes a byte. -/
def Obligations.PollOfFullBufferFreesSpace : Prop :=
  ∀ (s : State) (b : Buf) (dir : Dir), s.cfg.wf = true → s.Live b → (s.ring b).count = s.cap b →
    WellSized (s.cap b) (s.cfg.table dir) →
    ∃ t, exec (.decode b dir) s = .next t ∧ (t.ring b).count < (s.ring b).count

/-! ## Steps -/

/-- R41 (with log 3): a step takes the next event. A request that selects an operation runs it on the device with the event
taken; one that selects none does nothing more (R163); with no event nothing happens (R182). -/
def Obligations.StepRunsTheNextRequest : Prop :=
  (∀ s : State, s.schedule = [] → step s = .next s) ∧
  ∀ (s : State) (r : Request) (rest : List Event), s.schedule = .request r :: rest →
    (∀ i, decodeRequest r = .ok i → step s = exec i { s with schedule := rest }) ∧
    (∀ e, decodeRequest r = .error e → step s = .next { s with schedule := rest })

/-- A step whose event polls a buffer runs the frame at its head: with the event taken, it is the frame's own instruction on
the device scanned up to the frame (R24, R59, R87). -/
def Obligations.StepRunsTheFrameAtTheHead : Prop :=
  ∀ (s u : State) (r : Request) (rest : List Event) (i : Instr), s.schedule = .request r :: rest → r.op = 5#3 →
    s.Live r.buf → 1 ≤ s.cap r.buf → fetchFrame { s with schedule := rest } r.buf r.dir = .ok (i, u) →
    step s = exec i u

/-! ## The frames

That a frame is an instruction, and that its own meaning takes its fields from the instruction and does not look at the bytes
again, is log 8 (DEDUCED); the statements of this part rest on it. `PollIsTheFramesOwnInstruction` ties them to the poll. -/

/-- R134 to R137, R142, R143, the frame as an instruction by log 8: the six frames without payload complete wherever their byte is there, consume it, and return
their message. -/
def Obligations.FramesWithoutPayloadDeliver : Prop :=
  ∀ (s : State) (b : Buf), s.Live b → 1 ≤ (s.ring b).count →
    let after := fun m => Host.Outcome.next (s.polled b ((s.ring b).count - 1) 0 (.message m))
    exec (.ctlResetStatistics b) s = after .ctlResetStatistics ∧
    exec (.ctlKeepAlive b) s = after .ctlKeepAlive ∧
    exec (.ctlRun b) s = after .ctlRun ∧
    exec (.ctlStop b) s = after .ctlStop ∧
    exec (.remLockFailed b) s = after .remLockFailed ∧
    exec (.remOcdTripped b) s = after .remOcdTripped

/-- R130 (decode) with R106, the frame as an instruction by log 8: the boolean frame completes with `true` for every byte but 0, a marked one too. -/
def Obligations.SetDebugLedDelivers : Prop :=
  ∀ (s : State) (b : Buf) (p : Byte), s.Live b → 2 ≤ (s.ring b).count →
    exec (.ctlSetDebugLed b p) s =
      .next (s.polled b ((s.ring b).count - 2) 0 (.message (.ctlSetDebugLed (decide (p ≠ 0#8)))))

/-- R131, R133 (decode), R67, the frame as an instruction by log 8: an id frame completes with the entry's identity, or with `UnknownCatalogId`, two bytes consumed
either way; the parameter frame reads the parameter catalog, the statistic frame the statistic catalog. -/
def Obligations.IdFramesLookTheIdUp : Prop :=
  ∀ (s : State) (b : Buf) (k : Byte), s.Live b → 2 ≤ (s.ring b).count →
    let after := fun o => Host.Outcome.next (s.polled b ((s.ring b).count - 2) 0 o)
    (∀ e, lookupId s.cfg.paramCatalog k = some e →
      exec (.ctlGetParameter b k) s = after (.message (.ctlGetParameter e.name))) ∧
    (lookupId s.cfg.paramCatalog k = none → exec (.ctlGetParameter b k) s = after (.error .unknownCatalogId)) ∧
    (∀ e, lookupId s.cfg.statCatalog k = some e →
      exec (.ctlGetStatistic b k) s = after (.message (.ctlGetStatistic e.name))) ∧
    (lookupId s.cfg.statCatalog k = none → exec (.ctlGetStatistic b k) s = after (.error .unknownCatalogId))

/-- R132, R140, R141 (decode), R117, R119, R152, the frame as an instruction by log 8: a value frame completes, four bytes consumed whatever the outcome: the
quotient of a scaled entry, unsigned or sign-extended on bit 13, with no range check; the member of an enumerated one;
`InvalidEnumeratedValue` when there is none; `UnknownCatalogId` before any of these. -/
def Obligations.ValueFramesDecodeTheValue : Prop :=
  ∀ (s : State) (b : Buf) (k : Byte) (w : BitVec 14), s.Live b → 4 ≤ (s.ring b).count →
    let after := fun o => Host.Outcome.next (s.polled b ((s.ring b).count - 4) 0 o)
    let frames : List (Instr × Catalog × (String → PhysValue → Message)) := [
      (.ctlSetParameter b k w, s.cfg.paramCatalog, .ctlSetParameter),
      (.remGetParameterResult b k w, s.cfg.paramCatalog, .remGetParameterResult),
      (.remGetStatisticResult b k w, s.cfg.statCatalog, .remGetStatisticResult)]
    ∀ f ∈ frames,
      (lookupId f.2.1 k = none → exec f.1 s = after (.error .unknownCatalogId)) ∧
      (∀ e scale lo hi, lookupId f.2.1 k = some e → e.kind = .scaled scale false lo hi →
        exec f.1 s = after (.message (f.2.2 e.name (.scaled ((w.toNat : Rat) / (scale : Rat)))))) ∧
      (∀ e scale lo hi, lookupId f.2.1 k = some e → e.kind = .scaled scale true lo hi →
        exec f.1 s = after (.message (f.2.2 e.name (.scaled
          (((if w.toNat ≥ 8192 then (w.toNat : Int) - 16384 else (w.toNat : Int) : Int) : Rat) / (scale : Rat)))))) ∧
      (∀ e members m, lookupId f.2.1 k = some e → e.kind = .enum members →
        members.find? (fun p => p.1 == w) = some (w, m) → exec f.1 s = after (.message (f.2.2 e.name (.member m)))) ∧
      (∀ e members, lookupId f.2.1 k = some e → e.kind = .enum members → (∀ m, (w, m) ∉ members) →
        exec f.1 s = after (.error .invalidEnumeratedValue))

/-- R138, R144 (decode), the frame as an instruction by log 8: a ping frame of either direction completes with its sequence number, five bytes consumed. -/
def Obligations.PingFramesDeliverTheSequence : Prop :=
  ∀ (s : State) (b : Buf) (n : BitVec 28), s.Live b → 5 ≤ (s.ring b).count →
    exec (.ctlPing b n) s = .next (s.polled b ((s.ring b).count - 5) 0 (.message (.ctlPing n))) ∧
    exec (.remPing b n) s = .next (s.polled b ((s.ring b).count - 5) 0 (.message (.remPing n)))

/-- R91 on the frames' own instructions (lengths of R62 and R63): with fewer bytes than the frame's length each of the
fourteen waits, changing nothing but the result port. That a frame is an instruction is log 8; that a one-byte frame waits on
an empty buffer is the model's reading alone (log 8), for a poll never has that case (R91). -/
def Obligations.ShortFramesWait : Prop :=
  ∀ (s : State) (b : Buf) (p : Byte) (w : BitVec 14) (n : BitVec 28), s.Live b →
    let waits := fun i => exec i s = .next (s.setResult (.poll .pending))
    ((s.ring b).count < 1 → waits (.ctlResetStatistics b) ∧ waits (.ctlKeepAlive b) ∧ waits (.ctlRun b) ∧
      waits (.ctlStop b) ∧ waits (.remLockFailed b) ∧ waits (.remOcdTripped b)) ∧
    ((s.ring b).count < 2 → waits (.ctlSetDebugLed b p) ∧ waits (.ctlGetParameter b p) ∧ waits (.ctlGetStatistic b p)) ∧
    ((s.ring b).count < 4 → waits (.ctlSetParameter b p w) ∧ waits (.remGetParameterResult b p w) ∧
      waits (.remGetStatisticResult b p w)) ∧
    ((s.ring b).count < 5 → waits (.ctlPing b n) ∧ waits (.remPing b n))

/-! ## Encode -/

/-- R99, R100, R101: with a well-formed configuration every operand of `ENCODE` completes on a live instance. If the frame
fits, exactly its bytes are appended, the type byte first, and the result is `true`; if not, nothing is written and the
result is `false`. -/
def Obligations.EncodeIsAllOrNothing : Prop :=
  ∀ (s : State) (b : Buf) (m : Message), s.cfg.wf = true → m.wf s.cfg = true → s.Live b →
    ∃ (row : TypeRow) (q : List Byte), row ∈ s.cfg.table m.kind.dir ∧ row.kind = m.kind ∧
      encodePayload (catalogOf s.cfg m.kind) m.payload = some q ∧ q.length + 1 = m.kind.length ∧
      (s.cap b - (s.ring b).count < m.kind.length → exec (.encode b m) s = .next (s.setResult (.written false))) ∧
      (m.kind.length ≤ s.cap b - (s.ring b).count →
        ∃ t, exec (.encode b m) s = .next t ∧ t.result = .written true ∧
          (t.ring b).queue b (s.cap b) = (s.ring b).queue b (s.cap b) ++ typeByte row.code :: q ∧
          (t.ring b).count = (s.ring b).count + m.kind.length ∧
          (t.ring b).wcur = ((s.ring b).wcur + m.kind.length) % s.cap b ∧
          (t.ring b).fault = false ∧ (t.ring b).epoch = (s.ring b).epoch ∧ (t.ring b).draws = (s.ring b).draws ∧
          (∀ c, c ≠ b → t.ring c = s.ring c) ∧ t.cfg = s.cfg ∧ t.schedule = s.schedule)

/-- R50, R103: every payload byte `ENCODE` writes is unmarked, and every type byte is marked. -/
def Obligations.OnlyTheTypeByteIsMarked : Prop :=
  (∀ t, (typeByte t).marked = true) ∧
  ∀ (c : Catalog) (m : Message) (q : List Byte), encodePayload c m.payload = some q → ∀ x ∈ q, x.marked = false

/-- R102: the payload bytes by format: none; the boolean byte; the id byte; the id byte and the two groups of the wire value;
the four groups of the sequence number. -/
def Obligations.PayloadBytesFollowTheFormat : Prop :=
  ∀ c : Catalog, c.wf = true →
    encodePayload c .none = some [] ∧
    (∀ f, encodePayload c (.flag f) = some [if f then 0x01#8 else 0x00#8]) ∧
    (∀ e ∈ c, encodePayload c (.ident e.name) = some [BitVec.ofNat 8 e.id.toNat]) ∧
    (∀ e ∈ c, ∀ v w, encodeValue e.kind v = some w → encodePayload c (.value e.name v) =
      some [BitVec.ofNat 8 e.id.toNat, BitVec.ofNat 8 (w.toNat % 128), BitVec.ofNat 8 (w.toNat / 128 % 128)]) ∧
    (∀ n : BitVec 28, encodePayload c (.sequence n) =
      some [BitVec.ofNat 8 (n.toNat % 128), BitVec.ofNat 8 (n.toNat / 128 % 128),
        BitVec.ofNat 8 (n.toNat / 16384 % 128), BitVec.ofNat 8 (n.toNat / 2097152 % 128)])

/-- R105: on an empty live instance with room for the frame, encode then decode returns the message with its scaled values
quantized and leaves the instance empty; in every well-formed configuration and under either marked-payload policy. -/
def Obligations.EncodeThenDecodeReturnsTheMessage : Prop :=
  ∀ (s : State) (b : Buf) (m : Message), s.cfg.wf = true → m.wf s.cfg = true → s.Live b → (s.ring b).count = 0 →
    m.kind.length ≤ s.cap b →
    ∃ t u, exec (.encode b m) s = .next t ∧ t.result = .written true ∧
      exec (.decode b m.kind.dir) t = .next u ∧ u.result = .poll (.message (carriedMessage s.cfg m)) ∧
      (u.ring b).count = 0

/-- R7, R61, R138, R144: in every well-formed configuration, whatever its other codes, `Ping` of either direction is the frame
0xFF and its four groups: `ENCODE` appends it, a poll of it returns that `Ping`, and no other kind has the byte 0xFF. -/
def Obligations.PingIsTheByteFF : Prop :=
  ∀ (s : State) (b : Buf) (n : BitVec 28) (m : Message), s.cfg.wf = true → s.Live b → m = .ctlPing n ∨ m = .remPing n →
    (5 ≤ s.cap b - (s.ring b).count →
      ∃ t, exec (.encode b m) s = .next t ∧ t.result = .written true ∧
        (t.ring b).queue b (s.cap b) = (s.ring b).queue b (s.cap b) ++ [0xFF#8, BitVec.ofNat 8 (n.toNat % 128),
          BitVec.ofNat 8 (n.toNat / 128 % 128), BitVec.ofNat 8 (n.toNat / 16384 % 128),
          BitVec.ofNat 8 (n.toNat / 2097152 % 128)]) ∧
    (∀ p0 p1 p2 p3 rest, (s.ring b).queue b (s.cap b) = 0xFF#8 :: p0 :: p1 :: p2 :: p3 :: rest →
      (∀ x ∈ [p0, p1, p2, p3], Byte.marked x = false) →
      n.toNat = p0.toNat + 128 * p1.toNat + 16384 * p2.toNat + 2097152 * p3.toNat →
      exec (.decode b m.kind.dir) s = .next (s.polled b rest.length 0 (.message m))) ∧
    (∀ dir, ∀ row ∈ s.cfg.table dir, typeByte row.code = 0xFF#8 ↔ row.kind.isPing = true)

/-- R85, C5: garbage followed by a frame `ENCODE` wrote is one poll: the whole prefix is discarded, the message returned, the
buffer left empty. -/
def Obligations.GarbageThenAFrameIsOnePoll : Prop :=
  ∀ (s : State) (b : Buf) (m : Message) (row : TypeRow) (g q : List Byte), s.cfg.wf = true → m.wf s.cfg = true →
    s.Live b → 1 ≤ s.cap b → s.cfg.entryOf m.kind = some row →
    encodePayload (catalogOf s.cfg m.kind) m.payload = some q → (∀ x ∈ g, x.marked = false) →
    (s.ring b).queue b (s.cap b) = g ++ typeByte row.code :: q →
    exec (.decode b m.kind.dir) s = .next (s.polled b 0 0 (.message (carriedMessage s.cfg m)))

/-! ## Values and fields -/

/-- R128: a scaled value comes back as `clamp(trunc(v * scale), lo, hi) / scale`: exactly itself when and only when
`v * scale` is an integer of the range; inside the range off by less than `1/scale` and toward zero; outside it the nearer
bound; and every wire value whose raw value is in the range comes back. Truncation is toward zero by D18. -/
def Obligations.ScaledValuesRoundTrip : Prop :=
  ∀ (scale : Nat) (signed : Bool) (lo hi : Int), (EntryKind.scaled scale signed lo hi).wf = true →
    let e := EntryKind.scaled scale signed lo hi
    (∀ v : Rat, ∃ w v', encodeValue e (.scaled v) = some w ∧ decodeValue e w = some (.scaled v') ∧
      v' = (clampInt (truncZero (v * scale)) lo hi : Rat) / scale ∧
      (v' = v ↔ ∃ r : Int, lo ≤ r ∧ r ≤ hi ∧ v * scale = r) ∧
      ((lo : Rat) / scale ≤ v → v ≤ (hi : Rat) / scale →
        |v' - v| < 1 / scale ∧ (0 ≤ v → 0 ≤ v' ∧ v' ≤ v) ∧ (v ≤ 0 → v ≤ v' ∧ v' ≤ 0)) ∧
      (v < (lo : Rat) / scale → v' = (lo : Rat) / scale) ∧
      ((hi : Rat) / scale < v → v' = (hi : Rat) / scale)) ∧
    (∀ w v, lo ≤ rawOfWire signed w → rawOfWire signed w ≤ hi → decodeValue e w = some v → encodeValue e v = some w)

/-- R120: every member of an enumeration with distinct raws encodes to its raw and decodes back. -/
def Obligations.EnumMembersRoundTrip : Prop :=
  ∀ (members : List (BitVec 14 × String)) (m : String), (EntryKind.enum members).wf = true →
    (∃ r, (r, m) ∈ members) →
    ∃ w, (w, m) ∈ members ∧ encodeValue (.enum members) (.member m) = some w ∧
      decodeValue (.enum members) w = some (.member m)

/-- R115, R116: encoding saturates and never wraps: the raw value of the wire value is the clamped truncation, inside
`lo..hi`, for every rational. -/
def Obligations.EncodingSaturates : Prop :=
  ∀ (scale : Nat) (signed : Bool) (lo hi : Int) (v : Rat), (EntryKind.scaled scale signed lo hi).wf = true →
    ∃ w, encodeValue (.scaled scale signed lo hi) (.scaled v) = some w ∧
      rawOfWire signed w = max lo (min hi (truncZero (v * scale))) ∧
      lo ≤ rawOfWire signed w ∧ rawOfWire signed w ≤ hi

/-- R112, R56 (decode, with G2's reading of "signed integer"): bit 13 decides; and `ToWire14` (D19) is the inverse. -/
def Obligations.SignExtensionTestsBitThirteen : Prop :=
  (∀ w : BitVec 14, signExtend14 w = if w.getLsbD 13 then (w.toNat : Int) - 16384 else (w.toNat : Int)) ∧
  (∀ w : BitVec 14, -8192 ≤ signExtend14 w ∧ signExtend14 w ≤ 8191 ∧ toWire14 (signExtend14 w) = w) ∧
  (∀ r : Int, -8192 ≤ r → r ≤ 8191 → signExtend14 (toWire14 r) = r ∧ ((toWire14 r).toNat : Int) = r % 16384)

/-- R55, R109: the 14-bit field, low group first. -/
def Obligations.FourteenBitGroups : Prop :=
  (∀ p0 p1 : Byte, (assemble14 p0 p1).toNat = p0.toNat % 128 + 128 * (p1.toNat % 128)) ∧
  (∀ w : BitVec 14, split14 w = [BitVec.ofNat 8 (w.toNat % 128), BitVec.ofNat 8 (w.toNat / 128 % 128)]) ∧
  (∀ w : BitVec 14, ∃ p0 p1, split14 w = [p0, p1] ∧ assemble14 p0 p1 = w) ∧
  (∀ w : BitVec 14, rawOfWire false w = w.toNat)

/-- R110 (decode) and R111 (encode, its 28-bit operand by the spec's D25): the 28-bit sequence field, low group first. -/
def Obligations.TwentyEightBitGroups : Prop :=
  (∀ p0 p1 p2 p3 : Byte, (assemble28 p0 p1 p2 p3).toNat =
    p0.toNat % 128 + 128 * (p1.toNat % 128) + 16384 * (p2.toNat % 128) + 2097152 * (p3.toNat % 128)) ∧
  (∀ s : BitVec 28, ∃ p0 p1 p2 p3, split28 s = [p0, p1, p2, p3] ∧ assemble28 p0 p1 p2 p3 = s ∧
    p0.toNat = s.toNat % 128 ∧ p1.toNat = s.toNat / 128 % 128 ∧ p2.toNat = s.toNat / 16384 % 128 ∧
    p3.toNat = s.toNat / 2097152 % 128)

/-- R106: a boolean byte decodes to true unless all its eight bits are 0; what the encoder writes (R107, with the spec's D24)
decodes to itself. -/
def Obligations.BooleanBytes : Prop :=
  (∀ p : Byte, decodeBool p = true ↔ p ≠ 0#8) ∧ ∀ f, decodeBool (encodeBool f) = f

/-- R49: the type byte carries the start marker and the code. -/
def Obligations.TypeByteCarriesMarkerAndCode : Prop :=
  (∀ t : BitVec 7, (typeByte t).marked = true ∧ groupOf (typeByte t) = t ∧ (typeByte t).toNat = 128 + t.toNat) ∧
  (∀ x : Byte, x.marked = true → typeByte (groupOf x) = x)

/-- R121, R122: a byte of 128 or more is in no catalog, whatever its low seven bits; in a well-formed catalog each entry is
found under its own id byte, that byte is below 128, and no other entry has it. -/
def Obligations.CatalogLookupInvertsIds : Prop :=
  (∀ (c : Catalog) (k : Byte), 128 ≤ k.toNat → lookupId c k = none) ∧
  (∀ (c : Catalog), c.wf = true → ∀ e ∈ c, lookupId c (idByte e) = some e ∧ entryNamed c e.name = some e ∧
    (idByte e).toNat < 128 ∧ ∀ f ∈ c, idByte f = idByte e → f = e)

/-- R66 under the default policy (D22, D23, C8): a marked payload byte loses its mark as a group, fails as an id, and is true
as a boolean. -/
def Obligations.MarkedPayloadBytesUnderMask : Prop :=
  (∀ b draw p0 p1, wireField .mask b draw p0 p1 = assemble14 (p0 &&& 0x7F#8) (p1 &&& 0x7F#8)) ∧
  (∀ b draw p0 p1 p2 p3, sequenceField .mask b draw p0 p1 p2 p3 =
    assemble28 (p0 &&& 0x7F#8) (p1 &&& 0x7F#8) (p2 &&& 0x7F#8) (p3 &&& 0x7F#8)) ∧
  (∀ (c : Catalog) (k : Byte), k.marked = true → lookupId c k = none) ∧
  (∀ p : Byte, p.marked = true → decodeBool p = true)

/-! ## Encodings -/

/-- R51, R60, R163: in every well-formed configuration each instruction has words, and they decode to it, every operand at
every value. -/
def Obligations.DecodeInvertsEncode : Prop :=
  ∀ (cfg : Config) (i : Instr) (draw : Nat), cfg.wf = true →
    ∃ e, encode cfg i = some e ∧ decode cfg draw e = .ok i

/-- R163 (the numbers are the spec's own, D8): the operation of each select number, the operands taken from the ports; 7 selects none. -/
def Obligations.SelectNumbers : Prop :=
  ∀ (b : Buf) (x : Byte) (dir : Dir) (m : Message),
    let r := fun op => ({ op := op, buf := b, din := x, dir := dir, msg := m } : Request)
    decodeRequest (r 0#3) = .ok (.push b x) ∧ decodeRequest (r 1#3) = .ok (.pop b) ∧
    decodeRequest (r 2#3) = .ok (.peek b) ∧ decodeRequest (r 3#3) = .ok (.count b) ∧
    decodeRequest (r 4#3) = .ok (.free b) ∧ decodeRequest (r 5#3) = .ok (.decode b dir) ∧
    decodeRequest (r 6#3) = .ok (.encode b m) ∧ decodeRequest (r 7#3) = .error .noSuchOperation

/-- Sample words of REF (R62, R63, R51; the codes but Ping's are REF's): written from the formats' bit patterns. -/
def Obligations.SampleWordsDecode : Prop :=
  decodeFrame Config.ref 0 .rxb .ctl [0b10000000#8, 0b00000001#8] = .ok (.ctlSetDebugLed .rxb 1#8) ∧
  decodeFrame Config.ref 0 .rxb .ctl [0b10000010#8, 0b00000001#8, 0b01100000#8, 0b00000000#8] =
    .ok (.ctlSetParameter .rxb 1#8 96#14) ∧
  decodeFrame Config.ref 0 .rxb .ctl [0b11111111#8, 0b00101100#8, 0b00000010#8, 0#8, 0#8] = .ok (.ctlPing .rxb 300#28) ∧
  decodeFrame Config.ref 0 .rxb .rem [0b10000001#8, 0b00000001#8, 0b01101000#8, 0b01111111#8] =
    .ok (.remGetStatisticResult .rxb 1#8 16360#14) ∧
  decodeFrame Config.ref 0 .rxb .ctl [0b10001000#8] = .error .unknownTypeCode

/-! ## The whole machine -/

/-- R16 to R20: every step keeps the invariant of both instances: storage canonical and inside `0..N-1`; unless the mark is
set, `count <= N`, `wcur < N`, and every occupied element written. -/
def Obligations.StepKeepsTheInvariant : Prop :=
  ∀ (s t : State), s.Inv → step s = .next t → t.Inv

/-- R29: the invariant holds of a freshly constructed device of any configuration with both capacities at least 1, and of
`State.reset`. -/
def Obligations.FreshDeviceMeetsTheInvariant : Prop :=
  (∀ cfg : Config, 1 ≤ cfg.nRx → 1 ≤ cfg.nTx → (State.resetWith cfg).Inv) ∧ State.reset.Inv

/-- R26, R46: no instruction and no step writes the configuration. -/
def Obligations.ConfigurationIsConstant : Prop :=
  (∀ (i : Instr) (s t : State), exec i s = .next t → t.cfg = s.cfg ∧ t.schedule = s.schedule) ∧
  (∀ (s t : State), step s = .next t → t.cfg = s.cfg)

/-- R15: no instruction on one instance writes anything of the other. -/
def Obligations.OtherBufferIsUntouched : Prop :=
  ∀ (i : Instr) (s t : State) (c : Buf), exec i s = .next t → c ≠ bufOf i → t.ring c = s.ring c

/-- R22, R73, R99: the mark is sticky and only a push on a full instance sets it; `ENCODE` never does. -/
def Obligations.OnlyOverrunSetsTheFaultMark : Prop :=
  ∀ (i : Instr) (s t : State) (c : Buf), exec i s = .next t →
    ((t.ring c).fault = true ↔ (s.ring c).fault = true ∨ ∃ x, i = .push c x ∧ s.cap c ≤ (s.ring c).count)

/-- R16, R18: `storage`, `wcur` and the mark are written by `PUSH` and `ENCODE` alone; what every other instruction changes
of its instance is `count`, never upward, and the model's draw counter; `PEEK`, `COUNT` and `FREE` change nothing of it
(R39). -/
def Obligations.ReadersWriteOnlyTheCount : Prop :=
  ∀ (i : Instr) (s t : State) (b : Buf), exec i s = .next t → bufOf i = b →
    (∀ x, i ≠ .push b x) → (∀ m, i ≠ .encode b m) →
    (∃ c n, c ≤ (s.ring b).count ∧
      t.ring b = { s.ring b with count := c, draws := (s.ring b).draws + n }) ∧
    (i = .peek b ∨ i = .count b ∨ i = .free b → t.ring b = s.ring b)

/-- R16, R72, R99: the record of written bytes is as before outside the elements an instruction stores to, in both instances; for the
twenty-one instructions, with `storedIndices` computing the places, a push being one on an instance that is not full. -/
def Obligations.StorageOutsideTheStoresIsUnchanged : Prop :=
  ∀ (i : Instr) (s t : State) (c : Buf) (a : Nat), exec i s = .next t →
    (∀ x, i = .push c x → (s.ring c).count < s.cap c) →
    ¬ (c = bufOf i ∧ a ∈ storedIndices s i) → (t.ring c).storage.read a = (s.ring c).storage.read a

/-- R16, R74: every element that is occupied after an instruction and that the instruction does not store to reads, through
the model's read of one element, as before, in both instances. A free element holds a free value (R185, U5; log 4), so nothing
is said of it. A push is one on an instance that is not full. -/
def Obligations.OccupiedElementsReadAsBefore : Prop :=
  ∀ (i : Instr) (s t : State) (c : Buf) (a : Nat), 1 ≤ s.cap c → exec i s = .next t →
    (∀ x, i = .push c x → (s.ring c).count < s.cap c) →
    ¬ (c = bufOf i ∧ a ∈ storedIndices s i) → (t.ring c).occupied (s.cap c) a = true →
    (s.ring c).occupied (s.cap c) a = true ∧ (t.ring c).element c (s.cap c) a = (s.ring c).element c (s.cap c) a

/-- R42(d): between a consumer's operations `COUNT` only grows, between a producer's `FREE` only grows: an operation a
producer's role allows never lowers `COUNT` of either instance, one a consumer's role allows never lowers `FREE`. A push is
one on an instance that is not full (R171). -/
def Obligations.RolesOnlyHelpEachOther : Prop :=
  ∀ (i : Instr) (s t : State) (a : Agent) (b : Buf), exec i s = .next t → a.mayInvoke s.cfg.role i = true →
    (∀ x, i = .push b x → (s.ring b).count < s.cap b) →
    ((a = .receiveTransport ∨ a = .encoderCaller) → (s.ring b).count ≤ (t.ring b).count) ∧
    ((a = .decoderCaller ∨ a = .transmitTransport) →
      s.cap b - (s.ring b).count ≤ s.cap b - (t.ring b).count)

/-- R22, R72, R99, R150, R181: from a well-formed configuration with no mark set, a step that keeps the push contract and
gives `ENCODE` an operand always completes, and sets no mark: the defined behaviour is never left. -/
def Obligations.ContractKeepingStepsComplete : Prop :=
  ∀ s : State, s.cfg.wf = true → (∀ b, s.Live b) → s.gated = true → s.operandsOk = true →
    ∃ t, step s = .next t ∧ ∀ b, t.Live b
end

