-- ==== Sys2Proof/Laws/State.lean ====
section
/-! SUPPORT. What each update of State and of Ring leaves: one lemma per field per update, and what the shared ends of an
operation (`finish`, `live`, `acceptFrame`) can answer. -/

namespace Sys2Proof.Machine

variable (s : State) (b c : Buf) (B : Ring) (r : Result) (x : Byte) (N n : Nat)

@[simp] theorem setRing_ring : (s.setRing b B).ring b = B := by cases b <;> rfl
theorem setRing_ring_ne (h : c ≠ b) : (s.setRing b B).ring c = s.ring c := by cases b <;> cases c <;> simp_all [State.setRing, State.ring]
@[simp] theorem setRing_cfg : (s.setRing b B).cfg = s.cfg := by cases b <;> rfl
@[simp] theorem setRing_result : (s.setRing b B).result = s.result := by cases b <;> rfl
@[simp] theorem setRing_schedule : (s.setRing b B).schedule = s.schedule := by cases b <;> rfl
@[simp] theorem setRing_cap : (s.setRing b B).cap c = s.cap c := by cases b <;> rfl
@[simp] theorem setRing_self : s.setRing b (s.ring b) = s := by cases b <;> rfl
@[simp] theorem setRing_setRing (C : Ring) : (s.setRing b B).setRing b C = s.setRing b C := by cases b <;> rfl

@[simp] theorem setResult_ring : (s.setResult r).ring b = s.ring b := by cases b <;> rfl
@[simp] theorem setResult_cfg : (s.setResult r).cfg = s.cfg := rfl
@[simp] theorem setResult_result : (s.setResult r).result = r := rfl
@[simp] theorem setResult_schedule : (s.setResult r).schedule = s.schedule := rfl
@[simp] theorem setResult_cap : (s.setResult r).cap b = s.cap b := rfl

@[simp] theorem taken_ring : s.taken.ring b = s.ring b := by cases b <;> rfl
@[simp] theorem taken_cfg : s.taken.cfg = s.cfg := rfl
@[simp] theorem taken_result : s.taken.result = s.result := rfl
@[simp] theorem taken_schedule : s.taken.schedule = s.schedule.tail := rfl
@[simp] theorem taken_cap : s.taken.cap b = s.cap b := rfl

@[simp] theorem popped_storage : B.popped.storage = B.storage := rfl
@[simp] theorem popped_count : B.popped.count = B.count - 1 := rfl
@[simp] theorem popped_wcur : B.popped.wcur = B.wcur := rfl
@[simp] theorem popped_fault : B.popped.fault = B.fault := rfl
@[simp] theorem popped_epoch : B.popped.epoch = B.epoch := rfl
@[simp] theorem popped_draws : B.popped.draws = B.draws := rfl

@[simp] theorem pushed_storage : (B.pushed N x).storage = B.storage.write (B.wcur % N) x := rfl
@[simp] theorem pushed_count : (B.pushed N x).count = B.count + 1 := rfl
@[simp] theorem pushed_wcur : (B.pushed N x).wcur = (B.wcur + 1) % N := rfl
@[simp] theorem pushed_fault : (B.pushed N x).fault = B.fault := rfl
@[simp] theorem pushed_epoch : (B.pushed N x).epoch = B.epoch := rfl
@[simp] theorem pushed_draws : (B.pushed N x).draws = B.draws := rfl

@[simp] theorem overrun_fault : (B.overrun b N x).fault = true := rfl
@[simp] theorem overrun_storage : (B.overrun b N x).storage = [(B.wcur % N, x)] := rfl

@[simp] theorem drawn_storage : (B.drawn n).storage = B.storage := rfl
@[simp] theorem drawn_count : (B.drawn n).count = B.count := rfl
@[simp] theorem drawn_wcur : (B.drawn n).wcur = B.wcur := rfl
@[simp] theorem drawn_fault : (B.drawn n).fault = B.fault := rfl
@[simp] theorem drawn_epoch : (B.drawn n).epoch = B.epoch := rfl
@[simp] theorem drawn_draws : (B.drawn n).draws = B.draws + n := rfl

@[simp] theorem restarted_storage : B.restarted.storage = [] := rfl
@[simp] theorem restarted_count : B.restarted.count = 0 := rfl
@[simp] theorem restarted_wcur : B.restarted.wcur = 0 := rfl
@[simp] theorem restarted_fault : B.restarted.fault = false := rfl

@[simp] theorem finish_next : finish s b B r = .next ((s.setRing b B).setResult r) := rfl

theorem live_of_live (h : s.Live b) (f : Ring → Answer) : live s b f = f (s.ring b) := by
  simp only [State.Live] at h; simp [live, h]

theorem live_of_faulted (h : (s.ring b).fault = true) (f : Ring → Answer) : live s b f = .fault (.ringFaulted b) := by
  simp [live, h]

/-- All an operation on `b` can answer through `live`. -/
theorem live_cases (f : Ring → Answer) :
    ((s.ring b).fault = true ∧ live s b f = .fault (.ringFaulted b)) ∨ (s.Live b ∧ live s b f = f (s.ring b)) := by
  cases h : (s.ring b).fault
  · exact .inr ⟨h, live_of_live s b h f⟩
  · exact .inl ⟨rfl, live_of_faulted s b h f⟩

end Sys2Proof.Machine
end

