-- ==== Sys2Proof/Laws/Fields.lean ====
section
/-! SUPPORT. The field codecs bit by bit: groups, assembly and decomposition, type bytes (R49, R54, R108 to R111). -/

namespace Sys2Proof

theorem groupOf_getLsbD (x : Byte) (i : Nat) : (groupOf x).getLsbD i = (decide (i < 7) && x.getLsbD i) := by
  simp [groupOf]

theorem groupByte_getLsbD {n : Nat} (v : BitVec n) (k i : Nat) :
    (groupByte v k).getLsbD i = (decide (i < 7) && v.getLsbD (7 * k + i)) := by
  have h : (0x7F#8).getLsbD i = decide (i < 7) := by
    by_cases hi : i < 8
    · interval_cases i <;> rfl
    · rw [BitVec.getLsbD_of_ge _ _ (by omega)]; simp; omega
  simp only [groupByte, BitVec.getLsbD_and, BitVec.getLsbD_setWidth, BitVec.getLsbD_ushiftRight, h]
  by_cases hi : i < 7
  · simp [hi, show i < 8 by omega]
  · simp [hi]

theorem groupByte_unmarked {n : Nat} (v : BitVec n) (k : Nat) : (groupByte v k).marked = false := by
  rw [Byte.marked, groupByte_getLsbD]; rfl

/-- The group of a group byte is the seven bits it was made of (R54). -/
theorem groupOf_groupByte {n : Nat} (v : BitVec n) (k : Nat) : groupOf (groupByte v k) = v.extractLsb' (7 * k) 7 := by
  apply BitVec.eq_of_getLsbD_eq
  intro i hi
  rw [groupOf_getLsbD, groupByte_getLsbD, BitVec.getLsbD_extractLsb']
  simp [hi]

theorem assemble14_getLsbD (p0 p1 : Byte) (i : Nat) :
    (assemble14 p0 p1).getLsbD i =
      (decide (i < 14) && if i < 7 then p0.getLsbD i else p1.getLsbD (i - 7)) := by
  simp only [assemble14, BitVec.getLsbD_or, BitVec.getLsbD_setWidth, BitVec.getLsbD_shiftLeft, groupOf_getLsbD]
  by_cases h14 : i < 14
  · by_cases h7 : i < 7
    · simp [h14, h7]
    · simp [h14, h7, show i - 7 < 7 by omega, show i - 7 < 14 by omega]
  · simp [h14]

/-- R108 and R109 are inverse. -/
theorem assemble14_groups (w : BitVec 14) : assemble14 (groupByte w 0) (groupByte w 1) = w := by
  apply BitVec.eq_of_getLsbD_eq
  intro i hi
  rw [assemble14_getLsbD]
  by_cases h7 : i < 7
  · simp [hi, h7, groupByte_getLsbD]
  · simp [hi, h7, groupByte_getLsbD, show i - 7 < 7 by omega, show 7 + (i - 7) = i by omega]

theorem assemble28_getLsbD (p0 p1 p2 p3 : Byte) (i : Nat) (hi : i < 28) :
    (assemble28 p0 p1 p2 p3).getLsbD i =
      if i < 7 then p0.getLsbD i else if i < 14 then p1.getLsbD (i - 7)
      else if i < 21 then p2.getLsbD (i - 14) else p3.getLsbD (i - 21) := by
  simp only [assemble28, BitVec.getLsbD_or, BitVec.getLsbD_setWidth, BitVec.getLsbD_shiftLeft, groupOf_getLsbD]
  interval_cases i <;> simp

/-- R110 and R111 are inverse. -/
theorem assemble28_groups (s : BitVec 28) :
    assemble28 (groupByte s 0) (groupByte s 1) (groupByte s 2) (groupByte s 3) = s := by
  apply BitVec.eq_of_getLsbD_eq
  intro i hi
  rw [assemble28_getLsbD _ _ _ _ _ hi]
  interval_cases i <;>
    simp only [groupByte_getLsbD, Nat.reduceLT, ↓reduceIte, Nat.reduceSub, Nat.reduceMul, Nat.reduceAdd, decide_true,
      Bool.true_and]

theorem typeByte_getLsbD (t : BitVec 7) (i : Nat) :
    (typeByte t).getLsbD i = (decide (i = 7) || t.getLsbD i) := by
  have h : (0x80#8).getLsbD i = decide (i = 7) := by
    by_cases hi : i < 8
    · interval_cases i <;> rfl
    · rw [BitVec.getLsbD_of_ge _ _ (by omega)]; simp; omega
  simp only [typeByte, BitVec.getLsbD_or, BitVec.getLsbD_setWidth, h]
  by_cases hi : i < 8
  · simp [hi]
  · simp [hi, BitVec.getLsbD_of_ge t i (by omega)]

theorem typeByte_marked (t : BitVec 7) : (typeByte t).marked = true := by
  rw [Byte.marked, typeByte_getLsbD]; rfl

/-- A type byte's code reads back (R49). -/
theorem groupOf_typeByte (t : BitVec 7) : groupOf (typeByte t) = t := by
  apply BitVec.eq_of_getLsbD_eq
  intro i hi
  rw [groupOf_getLsbD, typeByte_getLsbD]
  simp [hi]
  omega

/-- No group byte an encoder writes leaves a field open (R50, U2). -/
theorem wireField_groups (policy : MarkedPolicy) (b : Buf) (draw : Nat) (w : BitVec 14) :
    wireField policy b draw (groupByte w 0) (groupByte w 1) = w := by
  simp [wireField, openGroups, groupByte_unmarked, assemble14_groups]

theorem sequenceField_groups (policy : MarkedPolicy) (b : Buf) (draw : Nat) (s : BitVec 28) :
    sequenceField policy b draw (groupByte s 0) (groupByte s 1) (groupByte s 2) (groupByte s 3) = s := by
  simp [sequenceField, openGroups, groupByte_unmarked, assemble28_groups]

end Sys2Proof
end

