-- ==== Sys2Proof/Laws/Memory.lean ====
section
/-! SUPPORT. The laws of storage: read after write, and that every write keeps the canonical form. -/

namespace Sys2Proof.Machine

theorem read_write_same (m : Memory) (i : Nat) (x : Byte) : (m.write i x).read i = some x := by
  induction m with
  | nil => simp [Memory.write, Memory.read]
  | cons c m ih =>
    obtain ⟨j, y⟩ := c
    simp only [Memory.write]
    split
    · simp [Memory.read]
    · split
      · simp [Memory.read]
      · simp [Memory.read, *]

theorem read_write_other (m : Memory) (i j : Nat) (x : Byte) (h : j ≠ i) : (m.write i x).read j = m.read j := by
  induction m with
  | nil => simp [Memory.write, Memory.read, h]
  | cons c m ih =>
    obtain ⟨k, y⟩ := c
    simp only [Memory.write]
    split
    · simp [Memory.read, h]
    · split
      · rename_i hik; subst hik; simp [Memory.read, h]
      · simp only [Memory.read, ih]

/-- The indices listed after a write: the old ones and the one written. -/
theorem mem_write (m : Memory) (i : Nat) (x : Byte) (p : Host.Cell) (h : p ∈ m.write i x) : p = (i, x) ∨ p ∈ m := by
  induction m with
  | nil => simpa [Memory.write] using h
  | cons c m ih =>
    obtain ⟨k, y⟩ := c
    simp only [Memory.write] at h
    split at h
    · simpa using h
    · split at h
      · rcases List.mem_cons.1 h with h | h <;> simp [h]
      · rcases List.mem_cons.1 h with h | h
        · simp [h]
        · rcases ih h with h | h <;> simp [h]

theorem wf_nil : Memory.wf [] = true := rfl

theorem wf_cons (c : Host.Cell) (m : Memory) : Memory.wf (c :: m) = true ↔ (∀ p ∈ m, c.1 < p.1) ∧ Memory.wf m = true := by
  simp [Memory.wf, List.pairwise_cons]

/-- A write keeps the canonical form. -/
theorem write_wf (m : Memory) (i : Nat) (x : Byte) (h : m.wf = true) : (m.write i x).wf = true := by
  induction m with
  | nil => simp [Memory.write, Memory.wf]
  | cons c m ih =>
    obtain ⟨k, y⟩ := c
    obtain ⟨hlt, hm⟩ := (wf_cons _ _).1 h
    simp only [Memory.write]
    split
    · rename_i hik
      refine (wf_cons _ _).2 ⟨fun p hp => ?_, h⟩
      rcases List.mem_cons.1 hp with rfl | hp
      · exact hik
      · exact lt_trans hik (hlt p hp)
    · split
      · rename_i _ hik
        subst hik
        exact (wf_cons _ _).2 ⟨hlt, hm⟩
      · rename_i h1 h2
        refine (wf_cons _ _).2 ⟨fun p hp => ?_, ih hm⟩
        rcases mem_write m i x p hp with rfl | hp
        · show k < i; omega
        · exact hlt p hp

/-- Reading a written index of a written memory: some byte stands there. -/
theorem read_write_isSome (m : Memory) (i j : Nat) (x : Byte) :
    ((m.write i x).read j).isSome = (decide (j = i) || (m.read j).isSome) := by
  by_cases h : j = i
  · subst h; simp [read_write_same]
  · simp [read_write_other m i j x h, h]

end Sys2Proof.Machine
end

