-- ==== Sys2Proof/Laws/Ring.lean ====
section
/-! SUPPORT. An instance as the queue of its bytes (R78): what each operation does to `Ring.queue`, and the counters each
leaves. None of these needs the invariant: they hold in every instance of capacity at least 1. -/

namespace Sys2Proof.Machine

variable {b : Buf} {N : Nat} {B : Ring}

/-! ## Indices -/

theorem headIndex_cast (hN : 1 ≤ N) (B : Ring) : ((B.headIndex N : Nat) : Int) = ((B.wcur : Int) - B.count) % N := by
  have h : (0 : Int) ≤ ((B.wcur : Int) - B.count) % N := Int.emod_nonneg _ (by omega)
  simp [Ring.headIndex, h]

theorem slot_cast (hN : 1 ≤ N) (B : Ring) (k : Nat) :
    ((B.slot N k : Nat) : Int) = ((B.wcur : Int) - B.count + k) % N := by
  rw [Ring.slot]
  push_cast
  rw [headIndex_cast hN B, Int.emod_add_emod]

theorem slot_lt (hN : 1 ≤ N) (B : Ring) (k : Nat) : B.slot N k < N := Nat.mod_lt _ hN

theorem headIndex_lt (hN : 1 ≤ N) (B : Ring) : B.headIndex N < N := by
  have := Int.emod_lt_of_pos ((B.wcur : Int) - B.count) (b := N) (by omega)
  have := headIndex_cast hN B
  omega

theorem slot_zero (hN : 1 ≤ N) (B : Ring) : B.slot N 0 = B.headIndex N := by
  simp [Ring.slot, Nat.mod_eq_of_lt (headIndex_lt hN B)]

/-- With `wcur` in range the element the next push writes is the one after the occupied ones. -/
theorem slot_count (hN : 1 ≤ N) (B : Ring) : B.slot N B.count = B.wcur % N := by
  have h := slot_cast hN B B.count
  have e : (B.wcur : Int) - B.count + B.count = B.wcur := by ring
  rw [e] at h
  exact_mod_cast h

/-- Two occupied positions less than `N` apart are different elements. -/
theorem slot_injective (hN : 1 ≤ N) (B : Ring) {j k : Nat} (hj : j < k) (hk : k < j + N) : B.slot N j ≠ B.slot N k := by
  intro h
  have hj' := slot_cast hN B j
  have hk' := slot_cast hN B k
  rw [h] at hj'
  have e : ((B.wcur : Int) - B.count + k) % N = ((B.wcur : Int) - B.count + j) % N := by rw [← hk', ← hj']
  have : ((N : Int)) ∣ ((k : Int) - j) := by
    have h2 := Int.ModEq.dvd (n := (N : Int)) (a := (B.wcur : Int) - B.count + j) (b := (B.wcur : Int) - B.count + k) e.symm
    have e3 : ((B.wcur : Int) - B.count + k) - ((B.wcur : Int) - B.count + j) = (k : Int) - j := by ring
    rwa [e3] at h2
  have := Int.le_of_dvd (by omega) this
  omega

theorem slot_popped (hN : 1 ≤ N) (hc : 0 < B.count) (k : Nat) : B.popped.slot N k = B.slot N (k + 1) := by
  have h1 := slot_cast hN B.popped k
  have h2 := slot_cast hN B (k + 1)
  have e : (B.popped.wcur : Int) - B.popped.count + k = (B.wcur : Int) - B.count + (k + 1 : Nat) := by
    simp only [popped_wcur, popped_count]; omega
  rw [e, ← h2] at h1
  exact_mod_cast h1

theorem slot_pushed (hN : 1 ≤ N) (x : Byte) (k : Nat) : (B.pushed N x).slot N k = B.slot N k := by
  have h1 := slot_cast hN (B.pushed N x) k
  have h2 := slot_cast hN B k
  have e : (((B.pushed N x).wcur : Nat) : Int) = ((B.wcur : Int) + 1) % N := by simp
  have e2 : (((B.pushed N x).wcur : Int) - (B.pushed N x).count + k) % N = ((B.wcur : Int) - B.count + k) % N := by
    rw [e, pushed_count]
    have h3 : (((B.wcur : Int) + 1) % N - ((B.count + 1 : Nat) : Int) + k) = (((B.wcur : Int) + 1) % N + (k - ((B.count + 1 : Nat) : Int))) := by ring
    rw [h3, Int.emod_add_emod]
    congr 1
    push_cast
    ring
  rw [e2, ← h2] at h1
  exact_mod_cast h1

theorem slot_drawn (B : Ring) (n k : Nat) : (B.drawn n).slot N k = B.slot N k := rfl

/-! ## The queue -/

@[simp] theorem queue_length (b : Buf) (N : Nat) (B : Ring) : (B.queue b N).length = B.count := by simp [Ring.queue]

theorem queue_getElem (k : Nat) (h : k < (B.queue b N).length) : (B.queue b N)[k] = B.written b (B.slot N k) := by
  simp [Ring.queue]

@[simp] theorem queue_drawn (n : Nat) : (B.drawn n).queue b N = B.queue b N := rfl

theorem queue_of_count_zero (h : B.count = 0) : B.queue b N = [] := by simp [Ring.queue, h]

/-- `POP` removes the first byte of the queue (R78). -/
theorem queue_popped (hN : 1 ≤ N) : B.popped.queue b N = (B.queue b N).tail := by
  apply List.ext_getElem
  · simp
  · intro k h1 h2
    simp only [queue_length, popped_count] at h1
    rw [List.getElem_tail, queue_getElem, queue_getElem, slot_popped hN (by omega)]
    rfl

/-- `PUSH` appends (R78). -/
theorem queue_pushed (hc : B.count < N) (x : Byte) : (B.pushed N x).queue b N = B.queue b N ++ [x] := by
  have hN : 1 ≤ N := by omega
  apply List.ext_getElem
  · simp
  · intro k h1 h2
    rw [queue_getElem, slot_pushed hN]
    simp only [queue_length, pushed_count] at h1
    rcases Nat.lt_succ_iff_lt_or_eq.1 h1 with hk | hk
    · rw [List.getElem_append_left (by simpa using hk), queue_getElem]
      have : B.slot N k ≠ B.wcur % N := by
        rw [← slot_count hN B]; exact slot_injective hN B hk (by omega)
      simp [Ring.written, read_write_other _ _ _ _ this]
    · subst hk
      rw [List.getElem_append_right (by simp)]
      simp [Ring.written, slot_count hN B, read_write_same]

/-! ## Elements -/

theorem occupied_iff (N : Nat) (B : Ring) (i : Nat) : B.occupied N i = true ↔ ∃ k < B.count, B.slot N k = i := by
  simp [Ring.occupied]

/-- An occupied element reads as the byte written there (R16). -/
theorem element_occupied {i : Nat} (h : B.occupied N i = true) : B.element b N i = B.written b i := by
  simp [Ring.element, h]

/-- The element at `k` bytes from the head is byte `k` of the queue (R20). -/
theorem element_slot (k : Nat) (h : k < B.count) : B.element b N (B.slot N k) = B.written b (B.slot N k) :=
  element_occupied ((occupied_iff N B _).2 ⟨k, h, rfl⟩)

/-- The head is occupied while the instance is not empty (R19). -/
theorem headIndex_occupied (hc : B.count ≠ 0) : B.occupied N (B.headIndex N) = true := by
  refine (occupied_iff N B _).2 ⟨0, by omega, ?_⟩
  rcases Nat.eq_zero_or_pos N with rfl | hN
  · simp [Ring.slot]
  · exact slot_zero hN B

/-- `PEEK` reads the byte written at the head (R75). -/
theorem peek_eq_written (b : Buf) (N : Nat) (B : Ring) :
    B.peek b N = if B.count = 0 then none else some (B.written b (B.headIndex N)) := by
  unfold Ring.peek
  split
  · rfl
  · next h => rw [element_occupied (headIndex_occupied h)]

/-- `PEEK` gives the first byte of the queue, or `Empty` (R78). -/
theorem peek_eq_head (hN : 1 ≤ N) (B : Ring) : B.peek b N = (B.queue b N).head? := by
  rw [peek_eq_written]
  split
  · next h => simp [queue_of_count_zero h]
  · next h =>
    have hl : 0 < (B.queue b N).length := by rw [queue_length]; omega
    rw [List.head?_eq_getElem?, List.getElem?_eq_getElem hl, queue_getElem, slot_zero hN]

theorem pop_eq (hN : 1 ≤ N) (B : Ring) :
    B.pop b N = ((B.queue b N).head?, if B.count = 0 then B else B.popped) := by
  unfold Ring.pop
  rw [peek_eq_head hN]
  cases h : (B.queue b N).head? with
  | none =>
    have : B.count = 0 := by
      have := congrArg List.length (List.head?_eq_none_iff.1 h); simpa using this
    simp [this]
  | some x =>
    have : B.count ≠ 0 := by
      intro h0; simp [queue_of_count_zero h0] at h
    simp [this]

/-! ## Scan -/

theorem scanLoop_storage (fuel : Nat) (B : Ring) : (B.scanLoop b N fuel).storage = B.storage := by
  induction fuel generalizing B with
  | zero => rfl
  | succ n ih => unfold Ring.scanLoop; split <;> try rfl
                 split <;> simp [*]

/-- What a scan writes is `count` alone (R82). -/
theorem scanLoop_eq (fuel : Nat) (B : Ring) : B.scanLoop b N fuel = { B with count := (B.scanLoop b N fuel).count } := by
  induction fuel generalizing B with
  | zero => rfl
  | succ n ih =>
    unfold Ring.scanLoop
    split
    · rfl
    · split
      · rfl
      · rw [ih]; rfl

theorem scan_eq (b : Buf) (N : Nat) (B : Ring) : B.scan b N = { B with count := (B.scan b N).count } := scanLoop_eq _ _

theorem scanLoop_queue (hN : 1 ≤ N) (fuel : Nat) (B : Ring) (h : B.count ≤ fuel) :
    (B.scanLoop b N fuel).queue b N = (B.queue b N).dropWhile (fun x => !x.marked) := by
  induction fuel generalizing B with
  | zero => simp [Ring.scanLoop, queue_of_count_zero (Nat.le_zero.1 h)]
  | succ n ih =>
    unfold Ring.scanLoop
    rw [peek_eq_head hN]
    cases hq : B.queue b N with
    | nil => simp [hq]
    | cons x q =>
      simp only [List.head?_cons, List.dropWhile_cons]
      cases hx : x.marked
      · have hc : B.count = q.length + 1 := by rw [← queue_length b N B, hq]; rfl
        simp [ih B.popped (by simp; omega), queue_popped hN, hq]
      · simp [hq]

/-- A scan drops exactly the longest prefix of unmarked bytes (R83). -/
theorem scan_queue (hN : 1 ≤ N) (b : Buf) (B : Ring) :
    (B.scan b N).queue b N = (B.queue b N).dropWhile (fun x => !x.marked) := scanLoop_queue hN _ _ le_rfl

theorem scan_count (hN : 1 ≤ N) (b : Buf) (B : Ring) :
    (B.scan b N).count = ((B.queue b N).dropWhile (fun x => !x.marked)).length := by
  rw [← scan_queue hN b B, queue_length]

@[simp] theorem scan_storage (b : Buf) (N : Nat) (B : Ring) : (B.scan b N).storage = B.storage := by rw [scan_eq]
@[simp] theorem scan_wcur (b : Buf) (N : Nat) (B : Ring) : (B.scan b N).wcur = B.wcur := by rw [scan_eq]
@[simp] theorem scan_fault (b : Buf) (N : Nat) (B : Ring) : (B.scan b N).fault = B.fault := by rw [scan_eq]
@[simp] theorem scan_epoch (b : Buf) (N : Nat) (B : Ring) : (B.scan b N).epoch = B.epoch := by rw [scan_eq]
@[simp] theorem scan_draws (b : Buf) (N : Nat) (B : Ring) : (B.scan b N).draws = B.draws := by rw [scan_eq]

/-! ## Drain -/

/-- Draining at most the occupied bytes returns the front of the queue and lowers `count` alone (R92). -/
theorem drain_eq (hN : 1 ≤ N) (n : Nat) (B : Ring) (h : n ≤ B.count) :
    B.drain b N n = ((B.queue b N).take n, { B with count := B.count - n }) := by
  induction n generalizing B with
  | zero => simp [Ring.drain]
  | succ n ih =>
    have hc : B.count ≠ 0 := by omega
    unfold Ring.drain
    rw [pop_eq hN]
    cases hq : B.queue b N with
    | nil => simp [← queue_length b N B, hq] at hc
    | cons x q =>
      have := ih B.popped (by simp; omega)
      rw [queue_popped hN, hq] at this
      simp only [List.head?_cons, hc, if_false, this, List.tail_cons, List.take_succ_cons]
      congr 2
      simp only [popped_count]; omega

/-- What a drain leaves of the instance needs no capacity: `count` alone is written (R74, R92). -/
theorem drain_snd (n : Nat) (B : Ring) (h : n ≤ B.count) : (B.drain b N n).2 = { B with count := B.count - n } := by
  induction n generalizing B with
  | zero => rfl
  | succ n ih =>
    have hc : B.count ≠ 0 := by omega
    have hp : B.pop b N = (some (B.written b (B.headIndex N)), B.popped) := by simp [Ring.pop, peek_eq_written, hc]
    unfold Ring.drain
    rw [hp]
    simp only
    rw [ih B.popped (by simp; omega)]
    simp only [Ring.popped]
    congr 1
    omega

theorem slot_lowered (hN : 1 ≤ N) (n k : Nat) (h : n ≤ B.count) :
    ({ B with count := B.count - n } : Ring).slot N k = B.slot N (n + k) := by
  have h1 := slot_cast hN ({ B with count := B.count - n } : Ring) k
  have h2 := slot_cast hN B (n + k)
  have e : ((B.wcur : Int) - ((B.count - n : Nat) : Int) + k) = (B.wcur : Int) - B.count + (n + k : Nat) := by omega
  simp only at h1
  rw [e, ← h2] at h1
  exact_mod_cast h1

/-- Lowering `count` only frees elements (R74). -/
theorem occupied_lowered (hN : 1 ≤ N) {n i : Nat} (h : n ≤ B.count)
    (ho : ({ B with count := B.count - n } : Ring).occupied N i = true) : B.occupied N i = true := by
  obtain ⟨k, hk, rfl⟩ := (occupied_iff _ _ _).1 ho
  simp only at hk
  exact (occupied_iff _ _ _).2 ⟨n + k, by omega, (slot_lowered hN n k h).symm⟩

theorem drain_length (n : Nat) (B : Ring) (h : n ≤ B.count) : (B.drain b N n).1.length = n := by
  induction n generalizing B with
  | zero => rfl
  | succ n ih =>
    have hc : B.count ≠ 0 := by omega
    have hp : B.pop b N = (some (B.written b (B.headIndex N)), B.popped) := by simp [Ring.pop, peek_eq_written, hc]
    unfold Ring.drain
    rw [hp]
    simp [ih B.popped (by simp; omega)]

theorem scanLoop_count_le (fuel : Nat) (B : Ring) : (B.scanLoop b N fuel).count ≤ B.count := by
  induction fuel generalizing B with
  | zero => exact le_rfl
  | succ n ih =>
    unfold Ring.scanLoop
    split
    · exact le_rfl
    · split
      · exact le_rfl
      · exact le_trans (ih _) (by simp)

theorem scan_count_le (b : Buf) (N : Nat) (B : Ring) : (B.scan b N).count ≤ B.count := scanLoop_count_le _ _

theorem queue_drained (hN : 1 ≤ N) (n : Nat) (B : Ring) (h : n ≤ B.count) :
    ({ B with count := B.count - n } : Ring).queue b N = (B.queue b N).drop n := by
  induction n generalizing B with
  | zero => simp
  | succ n ih =>
    have := ih B.popped (by simp; omega)
    rw [queue_popped hN] at this
    rw [← List.drop_one, List.drop_drop] at this
    simp only [popped_count] at this
    rw [show 1 + n = n + 1 by omega] at this
    rw [← this]
    congr 1
    simp only [Ring.popped]
    congr 1
    omega

/-! ## Pushing a frame -/

/-- Pushing bytes that fit appends them to the queue and touches only storage, `wcur` and `count` (R99, R100). -/
theorem pushAll_queue (xs : List Byte) (B : Ring) (h : B.count + xs.length ≤ N) :
    (B.pushAll b N xs).queue b N = B.queue b N ++ xs := by
  induction xs generalizing B with
  | nil => simp [Ring.pushAll]
  | cons x xs ih =>
    simp only [List.length_cons] at h
    have hc : B.count < N := by omega
    simp only [Ring.pushAll, Ring.push, hc, if_true]
    rw [ih _ (by simp; omega), queue_pushed hc]
    simp

theorem pushAll_count (xs : List Byte) (B : Ring) (h : B.count + xs.length ≤ N) :
    (B.pushAll b N xs).count = B.count + xs.length := by
  rw [← queue_length b N, pushAll_queue xs B h]; simp

theorem pushAll_fault (xs : List Byte) (B : Ring) (h : B.count + xs.length ≤ N) :
    (B.pushAll b N xs).fault = B.fault := by
  induction xs generalizing B with
  | nil => rfl
  | cons x xs ih =>
    simp only [List.length_cons] at h
    have hc : B.count < N := by omega
    simp only [Ring.pushAll, Ring.push, hc, if_true]
    rw [ih _ (by simp; omega), pushed_fault]

theorem pushAll_epoch (xs : List Byte) (B : Ring) (h : B.count + xs.length ≤ N) :
    (B.pushAll b N xs).epoch = B.epoch := by
  induction xs generalizing B with
  | nil => rfl
  | cons x xs ih =>
    simp only [List.length_cons] at h
    have hc : B.count < N := by omega
    simp only [Ring.pushAll, Ring.push, hc, if_true]
    rw [ih _ (by simp; omega), pushed_epoch]

theorem pushAll_draws (xs : List Byte) (B : Ring) (h : B.count + xs.length ≤ N) :
    (B.pushAll b N xs).draws = B.draws := by
  induction xs generalizing B with
  | nil => rfl
  | cons x xs ih =>
    simp only [List.length_cons] at h
    have hc : B.count < N := by omega
    simp only [Ring.pushAll, Ring.push, hc, if_true]
    rw [ih _ (by simp; omega), pushed_draws]

theorem pushAll_wcur (hN : 1 ≤ N) (xs : List Byte) (B : Ring) (h : B.count + xs.length ≤ N) (hw : B.wcur < N) :
    (B.pushAll b N xs).wcur = (B.wcur + xs.length) % N := by
  induction xs generalizing B with
  | nil => simp [Ring.pushAll, Nat.mod_eq_of_lt hw]
  | cons x xs ih =>
    simp only [List.length_cons] at h
    have hc : B.count < N := by omega
    simp only [Ring.pushAll, Ring.push, hc, if_true]
    rw [ih _ (by simp; omega) (Nat.mod_lt _ hN), pushed_wcur, Nat.mod_add_mod, List.length_cons]
    congr 1; omega

/-- Bytes pushed leave every element but the ones they are written to (R72, R99). -/
theorem pushAll_read_other (xs : List Byte) (B : Ring) (h : B.count + xs.length ≤ N) (i : Nat)
    (hi : ∀ k < xs.length, i ≠ (B.wcur + k) % N) : (B.pushAll b N xs).storage.read i = B.storage.read i := by
  induction xs generalizing B with
  | nil => rfl
  | cons x xs ih =>
    simp only [List.length_cons] at h hi
    have hc : B.count < N := by omega
    simp only [Ring.pushAll, Ring.push, hc, if_true]
    rw [ih _ (by simp; omega) ?_, pushed_storage, read_write_other _ _ _ _ (by simpa using hi 0 (by omega))]
    intro k hk
    have := hi (k + 1) (by omega)
    simp only [pushed_wcur, Nat.mod_add_mod]
    rwa [Nat.add_assoc, Nat.add_comm 1 k]

end Sys2Proof.Machine
end

