-- ==== Sys2Proof/Laws/Inv.lean ====
section
/-! SUPPORT. How the invariant of an instance is carried by what operations do to it. -/

namespace Sys2Proof.Machine

variable {b : Buf} {N : Nat} {B : Ring}

/-- An instance just created satisfies the invariant (R29). -/
theorem inv_reset (hN : 1 ≤ N) : Ring.reset.Inv N where
  canonical := rfl
  inRange := by simp [Ring.reset]
  countLe := by simp [Ring.reset]
  cursorLt := fun _ => hN
  written := by simp [Ring.reset]

/-- So does an instance returned to reset at run time (R167). -/
theorem inv_restarted (hN : 1 ≤ N) (B : Ring) : B.restarted.Inv N where
  canonical := rfl
  inRange := by simp
  countLe := by simp
  cursorLt := fun _ => hN
  written := by simp

theorem inv_popped (hN : 1 ≤ N) (h : B.Inv N) : B.popped.Inv N where
  canonical := h.canonical
  inRange := h.inRange
  countLe := fun hf => by have := h.countLe hf; simp only [popped_count]; omega
  cursorLt := h.cursorLt
  written := fun hf k hk => by
    simp only [popped_count] at hk
    rw [popped_storage, slot_popped hN (by omega)]
    exact h.written hf _ (by omega)

theorem inv_drawn (h : B.Inv N) (n : Nat) : (B.drawn n).Inv N :=
  ⟨h.canonical, h.inRange, h.countLe, h.cursorLt, h.written⟩

/-- Lowering `count` by whole pops keeps the invariant. -/
theorem inv_lowered (hN : 1 ≤ N) (h : B.Inv N) (n : Nat) : ({ B with count := B.count - n } : Ring).Inv N := by
  induction n with
  | zero => exact h
  | succ n ih => exact inv_popped hN ih

theorem inv_scanLoop (hN : 1 ≤ N) (fuel : Nat) (h : B.Inv N) : (B.scanLoop b N fuel).Inv N := by
  induction fuel generalizing B with
  | zero => exact h
  | succ n ih =>
    unfold Ring.scanLoop
    split
    · exact h
    · split
      · exact h
      · exact ih (inv_popped hN h)

theorem inv_scan (hN : 1 ≤ N) (h : B.Inv N) : (B.scan b N).Inv N := inv_scanLoop hN _ h

theorem inv_drain (hN : 1 ≤ N) (n : Nat) (h : B.Inv N) : (B.drain b N n).2.Inv N := by
  induction n generalizing B with
  | zero => exact h
  | succ n ih =>
    unfold Ring.drain
    rw [pop_eq hN]
    cases (B.queue b N).head? with
    | none => simp only; split <;> [exact h; exact inv_popped hN h]
    | some x => simp only; split <;> [exact ih h; exact ih (inv_popped hN h)]

theorem inv_pushed (hc : B.count < N) (h : B.Inv N) (x : Byte) : (B.pushed N x).Inv N where
  canonical := write_wf _ _ _ h.canonical
  inRange := fun p hp => by
    rcases mem_write _ _ _ p hp with rfl | hp
    · exact Nat.mod_lt _ (by omega)
    · exact h.inRange p hp
  countLe := fun _ => by simp only [pushed_count]; omega
  cursorLt := fun _ => Nat.mod_lt _ (by omega)
  written := fun hf k hk => by
    have hN : 1 ≤ N := by omega
    rw [slot_pushed hN, pushed_storage, read_write_isSome]
    rcases Nat.lt_succ_iff_lt_or_eq.1 hk with hk | rfl
    · simp [h.written hf k hk]
    · simp [slot_count hN B]

/-- A push on a full instance keeps what the invariant still says of a faulted one (R22). -/
theorem inv_overrun (hN : 1 ≤ N) (B : Ring) (x : Byte) : (B.overrun b N x).Inv N where
  canonical := rfl
  inRange := fun p hp => by
    simp only [overrun_storage, List.mem_singleton] at hp
    subst hp
    exact Nat.mod_lt _ hN
  countLe := by simp
  cursorLt := by simp
  written := by simp

theorem inv_push (hN : 1 ≤ N) (h : B.Inv N) (x : Byte) : (B.push b N x).Inv N := by
  unfold Ring.push
  split
  · next hc => exact inv_pushed hc h x
  · exact inv_overrun hN B x

theorem inv_pushAll (hN : 1 ≤ N) (xs : List Byte) (h : B.Inv N) : (B.pushAll b N xs).Inv N := by
  induction xs generalizing B with
  | nil => exact h
  | cons x xs ih => exact ih (inv_push hN h x)

end Sys2Proof.Machine
end

