-- ==== Sys2Proof/Laws/Exec.lean ====
section
/-! SUPPORT. What each shared meaning can answer, said once: a frame (`acceptFrame`), a poll (`execDecode`), an encode
(`execEncode`); and the facts of tables, kinds and payloads they rest on. -/

namespace Sys2Proof

/-! ## Tables and kinds -/

theorem row_ok_iff (dir : Dir) (r : TypeRow) :
    r.ok dir = true ↔ r.kind.dir = dir ∧ r.format = r.kind.format ∧ r.length = r.format.length ∧
      ((r.code == pingCode) = r.kind.isPing) := by
  simp [TypeRow.ok, and_assoc]

/-- A usable entry of a `Ping` has the code 0x7F (R61). -/
theorem row_ok_ping {dir : Dir} {r : TypeRow} (h : r.ok dir = true) (hp : r.kind.isPing = true) : r.code = pingCode := by
  obtain ⟨_, _, _, h4⟩ := (row_ok_iff dir r).1 h
  simpa [hp] using h4

/-- A usable entry with the code 0x7F is a `Ping` (R60, R61). -/
theorem row_ok_code {dir : Dir} {r : TypeRow} (h : r.ok dir = true) (hc : r.code = pingCode) : r.kind.isPing = true := by
  obtain ⟨_, _, _, h4⟩ := (row_ok_iff dir r).1 h
  simpa [hc] using h4.symm

theorem row_ok_length {dir : Dir} {r : TypeRow} (h : r.ok dir = true) : r.length = r.kind.length := by
  obtain ⟨_, h2, h3, _⟩ := (row_ok_iff dir r).1 h
  rw [h3, h2]; rfl

theorem kind_length_pos (k : Kind) : 1 ≤ k.length := by cases k <;> decide

/-- A message's kind makes that message of its own payload. -/
theorem make_payload (m : Message) : m.kind.make m.payload = some m := by cases m <;> rfl

theorem table_wf {cfg : Config} (h : cfg.wf = true) (dir : Dir) : (cfg.table dir).wf dir = true := by
  simp only [Config.wf, Bool.and_eq_true] at h
  cases dir
  · exact h.1.1.1.2
  · exact h.1.1.2

theorem catalogs_wf {cfg : Config} (h : cfg.wf = true) : cfg.paramCatalog.wf = true ∧ cfg.statCatalog.wf = true := by
  simp only [Config.wf, Bool.and_eq_true] at h
  exact ⟨h.1.2, h.2⟩

theorem capacity_pos {cfg : Config} (h : cfg.wf = true) (b : Buf) : 1 ≤ cfg.capacity b := by
  simp only [Config.wf, Bool.and_eq_true, decide_eq_true_eq] at h
  cases b
  · exact h.1.1.1.1.1
  · exact h.1.1.1.1.2

theorem table_rows_ok {dir : Dir} {t : TypeTable} (h : t.wf dir = true) {r : TypeRow} (hr : r ∈ t) : r.ok dir = true := by
  simp only [TypeTable.wf, Bool.and_eq_true, List.all_eq_true] at h
  exact h.1.1.1 r hr

/-- The row a code finds is a row of the table with that code. -/
theorem lookupType_some {cfg : Config} {dir : Dir} {t : BitVec 7} {r : TypeRow} (h : cfg.lookupType dir t = some r) :
    r ∈ cfg.table dir ∧ r.code = t := by
  refine ⟨List.mem_of_find?_eq_some h, ?_⟩
  simpa using List.find?_some h

theorem entryOf_some {cfg : Config} {k : Kind} {r : TypeRow} (h : cfg.entryOf k = some r) :
    r ∈ cfg.table k.dir ∧ r.kind = k := by
  refine ⟨List.mem_of_find?_eq_some h, ?_⟩
  simpa using List.find?_some h

theorem kind_mem_ofDir (k : Kind) : k ∈ Kind.ofDir k.dir := by cases k <;> decide

/-- Every kind has an entry in a well-formed table (R60, R101). -/
theorem entryOf_total {cfg : Config} (h : cfg.wf = true) (k : Kind) : ∃ r, cfg.entryOf k = some r := by
  have hw := table_wf h k.dir
  simp only [TypeTable.wf, Bool.and_eq_true, List.all_eq_true] at hw
  have hk : k ∈ (cfg.table k.dir).map TypeRow.kind := by simpa using hw.2 k (kind_mem_ofDir k)
  obtain ⟨r, hr, hrk⟩ := List.mem_map.1 hk
  have : ((cfg.table k.dir).find? (fun r => r.kind == k)).isSome = true := by
    rw [List.find?_isSome]; exact ⟨r, hr, by simp [hrk]⟩
  exact Option.isSome_iff_exists.1 this

/-- A kind's code finds the kind's own entry (R60: codes distinct). -/
theorem lookupType_code {cfg : Config} (h : cfg.wf = true) {k : Kind} {r : TypeRow} (hr : cfg.entryOf k = some r) :
    cfg.lookupType k.dir r.code = some r := by
  obtain ⟨hm, _⟩ := entryOf_some hr
  have hw := table_wf h k.dir
  simp only [TypeTable.wf, Bool.and_eq_true, decide_eq_true_eq] at hw
  have hnd := hw.1.1.2
  have : ((cfg.table k.dir).find? (fun x => x.code == r.code)).isSome = true := by
    rw [List.find?_isSome]; exact ⟨r, hm, by simp⟩
  obtain ⟨q, hq⟩ := Option.isSome_iff_exists.1 this
  obtain ⟨hqm, hqc⟩ := lookupType_some (cfg := cfg) (dir := k.dir) (t := r.code) hq
  have : q = r := List.inj_on_of_nodup_map hnd hqm hm hqc
  rw [← this]
  rw [this]
  exact this ▸ hq

end Sys2Proof

namespace Sys2Proof.Machine

variable {s t : State} {b c : Buf} {L : Nat} {o : PollOutcome}

/-- Every instruction stops on a faulted instance (R22). -/
theorem exec_faulted (i : Instr) (s : State) (h : (s.ring (bufOf i)).fault = true) :
    exec i s = .fault (.ringFaulted (bufOf i)) := by
  cases i <;> simp only [bufOf] at h <;>
    simp [live_of_faulted s _ h, bufOf, exec, execCtlSetDebugLed, execCtlGetParameter, execCtlSetParameter,
      execCtlGetStatistic, execCtlResetStatistics, execCtlKeepAlive, execCtlRun, execCtlStop, execCtlPing,
      execRemGetParameterResult, execRemGetStatisticResult, execRemLockFailed, execRemOcdTripped, execRemPing, execPush,
      execPop, execPeek, execCount, execFree, execDecode, execEncode, acceptFrame]

/-! ## A poll's end -/

@[simp] theorem polled_cfg (n k : Nat) : (s.polled b n k o).cfg = s.cfg := by simp [State.polled]
@[simp] theorem polled_schedule (n k : Nat) : (s.polled b n k o).schedule = s.schedule := by simp [State.polled]
@[simp] theorem polled_result (n k : Nat) : (s.polled b n k o).result = .poll o := by simp [State.polled]
@[simp] theorem polled_cap (n k : Nat) : (s.polled b n k o).cap c = s.cap c := by simp [State.polled]
@[simp] theorem polled_ring (n k : Nat) :
    (s.polled b n k o).ring b = { s.ring b with count := n, draws := (s.ring b).draws + k } := by simp [State.polled]
theorem polled_ring_ne (n k : Nat) (h : c ≠ b) : (s.polled b n k o).ring c = s.ring c := by
  simp [State.polled, setRing_ring_ne _ _ _ _ h]

/-- A poll that leaves the instance alone. -/
theorem polled_self : s.polled b (s.ring b).count 0 o = s.setResult (.poll o) := by
  simp only [State.polled, Nat.add_zero]
  exact congrArg (State.setResult · _) (setRing_self s b)

/-! ## Frames -/

/-- A frame whose bytes are there (R92, R93). -/
theorem acceptFrame_complete (h : s.Live b) (hL : L ≤ (s.ring b).count) :
    acceptFrame s b L o = .next (s.polled b ((s.ring b).count - L) 0 o) := by
  unfold acceptFrame
  rw [live_of_live s b h, if_neg (by omega), drain_snd _ _ hL]
  rfl

/-- A frame that is not all there yet (R91). -/
theorem acceptFrame_short (h : s.Live b) (hL : (s.ring b).count < L) :
    acceptFrame s b L o = .next (s.setResult (.poll .pending)) := by
  unfold acceptFrame
  rw [live_of_live s b h, if_pos hL, finish_next, setRing_self]

/-- All a frame can answer. -/
theorem acceptFrame_cases (s : State) (b : Buf) (L : Nat) (o : PollOutcome) :
    ((s.ring b).fault = true ∧ acceptFrame s b L o = .fault (.ringFaulted b)) ∨
    (s.Live b ∧ ∃ n o', n ≤ (s.ring b).count ∧ acceptFrame s b L o = .next (s.polled b n 0 o') ∧
      (o' = .pending ∧ n = (s.ring b).count ∨ o' = o ∧ n + L = (s.ring b).count)) := by
  by_cases hf : (s.ring b).fault = true
  · exact .inl ⟨hf, live_of_faulted s b hf _⟩
  · have hl : s.Live b := by simpa using hf
    by_cases hL : L ≤ (s.ring b).count
    · exact .inr ⟨hl, _, _, by omega, acceptFrame_complete hl hL, .inr ⟨rfl, by omega⟩⟩
    · refine .inr ⟨hl, (s.ring b).count, .pending, le_rfl, ?_, .inl ⟨rfl, rfl⟩⟩
      rw [acceptFrame_short hl (by omega), polled_self]

/-! ## The poll -/

/-- The format a payload belongs to (R51). -/
def payloadFormat : Payload → Format
  | .none => .f0
  | .flag _ => .fb
  | .ident _ => .fi
  | .value _ _ => .fv
  | .sequence _ => .fs

/-- A payload of the kind's format makes a message of the kind (R89). -/
theorem make_some (k : Kind) (q : Payload) (h : payloadFormat q = k.format) : ∃ m, k.make q = some m ∧ m.kind = k := by
  cases k <;> cases q <;> first | exact ⟨_, rfl, rfl⟩ | (simp [payloadFormat, Kind.format] at h)

theorem decodePayload_fi (cfg : Config) (b : Buf) (d : Nat) (k : Kind) (p1 : Byte) (r : List Byte) :
    (decodePayload cfg b d k .fi (p1 :: r) = some (.error .unknownCatalogId)) ∨
      ∃ e, decodePayload cfg b d k .fi (p1 :: r) = some (.ok (.ident e)) := by
  simp only [decodePayload]
  cases lookupId (catalogOf cfg k) p1 with
  | none => exact .inl rfl
  | some e => exact .inr ⟨_, rfl⟩

theorem decodePayload_fv (cfg : Config) (b : Buf) (d : Nat) (k : Kind) (p1 p2 p3 : Byte) (r : List Byte) :
    (decodePayload cfg b d k .fv (p1 :: p2 :: p3 :: r) = some (.error .unknownCatalogId)) ∨
      (decodePayload cfg b d k .fv (p1 :: p2 :: p3 :: r) = some (.error .invalidEnumeratedValue)) ∨
      ∃ e v, decodePayload cfg b d k .fv (p1 :: p2 :: p3 :: r) = some (.ok (.value e v)) := by
  simp only [decodePayload]
  cases lookupId (catalogOf cfg k) p1 with
  | none => exact .inl rfl
  | some e =>
    simp only
    cases decodeValue e.kind (wireField cfg.markedPolicy b d p2 p3) with
    | none => exact .inr (.inl rfl)
    | some v => exact .inr (.inr ⟨_, _, rfl⟩)

/-- The payload bytes of a whole frame decode to one of the two value errors or to a payload of the format (R94). -/
theorem decodePayload_shape (cfg : Config) (b : Buf) (d : Nat) (k : Kind) (fmt : Format) (p : List Byte)
    (hp : p.length + 1 = fmt.length) :
    (∃ e, e ≠ .bufferFull ∧ decodePayload cfg b d k fmt p = some (.error e)) ∨
      ∃ q, payloadFormat q = fmt ∧ decodePayload cfg b d k fmt p = some (.ok q) := by
  cases fmt with
  | f0 => exact .inr ⟨.none, rfl, rfl⟩
  | fb =>
    match p, hp with
    | [p1], _ => exact .inr ⟨_, rfl, rfl⟩
  | fi =>
    match p, hp with
    | [p1], _ =>
      rcases decodePayload_fi cfg b d k p1 [] with h | ⟨e, h⟩
      · exact .inl ⟨_, by simp, h⟩
      · exact .inr ⟨_, rfl, h⟩
  | fv =>
    match p, hp with
    | [p1, p2, p3], _ =>
      rcases decodePayload_fv cfg b d k p1 p2 p3 [] with h | h | ⟨e, v, h⟩
      · exact .inl ⟨_, by simp, h⟩
      · exact .inl ⟨_, by simp, h⟩
      · exact .inr ⟨_, rfl, h⟩
  | fs =>
    match p, hp with
    | [p1, p2, p3, p4], _ => exact .inr ⟨_, rfl, rfl⟩

/-- A drained frame of a well-formed row always has an outcome: a message of the row's kind or a value error (R94). -/
theorem drainedOutcome_total (cfg : Config) (b : Buf) (d : Nat) {dir : Dir} {row : TypeRow} (h : row.ok dir = true)
    (p : List Byte) (hp : p.length + 1 = row.length) : ∃ o, drainedOutcome cfg b d row p = some o ∧ o ≠ .pending ∧
      o ≠ .error .bufferFull ∧ ∀ m, o = .message m → m.kind = row.kind := by
  obtain ⟨_, h2, h3, _⟩ := (row_ok_iff dir _).1 h
  rcases decodePayload_shape cfg b d row.kind row.format p (by rw [hp, h3]) with ⟨e, he, hd⟩ | ⟨q, hq, hd⟩
  · exact ⟨.error e, by simp [drainedOutcome, hd], by simp, by simpa using he, by simp⟩
  · obtain ⟨m, hm, hk⟩ := make_some row.kind q (by rw [hq, h2])
    refine ⟨.message m, by simp [drainedOutcome, hd, hm], by simp, by simp, ?_⟩
    rintro m' ⟨⟩
    exact hk

/-- A poll whose queue starts with garbage and a known, complete frame (R92 to R94). -/
theorem execDecode_frame (s : State) (b : Buf) (dir : Dir) (hl : s.Live b) {row : TypeRow} {h : Byte}
    (hh : ((s.ring b).scan b (s.cap b)).peek b (s.cap b) = some h) (hrow : s.cfg.lookupType dir (groupOf h) = some row)
    (hok : row.ok dir = true) :
    execDecode b dir s = pollFrame s b dir row ((s.ring b).scan b (s.cap b)) := by
  simp [execDecode, live_of_live s b hl, hh, hrow, hok]

theorem pollFrame_short (s : State) (b : Buf) (dir : Dir) (row : TypeRow)
    (hc : ((s.ring b).scan b (s.cap b)).count < row.length) :
    pollFrame s b dir row ((s.ring b).scan b (s.cap b)) =
      .next (s.polled b ((s.ring b).scan b (s.cap b)).count 0 .pending) := by
  unfold pollFrame
  rw [if_pos hc, finish_next, scan_eq]
  rfl

theorem pollFrame_complete (s : State) (b : Buf) (dir : Dir) {row : TypeRow} (hok : row.ok dir = true)
    (hc : row.length ≤ ((s.ring b).scan b (s.cap b)).count) :
    ∃ o, drainedOutcome s.cfg b (s.ring b).draws row
        (((s.ring b).scan b (s.cap b)).drain b (s.cap b) row.length).1.tail = some o ∧
      o ≠ .pending ∧ o ≠ .error .bufferFull ∧ (∀ m, o = .message m → m.kind = row.kind) ∧
      pollFrame s b dir row ((s.ring b).scan b (s.cap b)) =
        .next (s.polled b (((s.ring b).scan b (s.cap b)).count - row.length)
          (frameDraws s.cfg.markedPolicy row.format
            (((s.ring b).scan b (s.cap b)).drain b (s.cap b) row.length).1.tail) o) := by
  have hlen : 1 ≤ row.length := by rw [row_ok_length hok]; exact kind_length_pos _
  obtain ⟨o, ho, h1, h2, h3⟩ := drainedOutcome_total s.cfg b (s.ring b).draws hok
    (((s.ring b).scan b (s.cap b)).drain b (s.cap b) row.length).1.tail
    (by rw [List.length_tail, drain_length _ _ hc]; omega)
  refine ⟨o, ho, h1, h2, h3, ?_⟩
  unfold pollFrame
  rw [if_neg (by omega)]
  simp only [scan_draws, ho, drain_snd _ _ hc, finish_next, Ring.drawn]
  rw [scan_eq]
  rfl

/-- All a poll can answer: a stop on a faulted instance, a refusal of an ill-formed table row, or a result with only `count`
lowered. -/
theorem execDecode_cases (b : Buf) (dir : Dir) (s : State) :
    ((s.ring b).fault = true ∧ execDecode b dir s = .fault (.ringFaulted b)) ∨
    (s.Live b ∧ execDecode b dir s = .refused (.illFormedTable dir) ∧
      ∃ row ∈ s.cfg.table dir, row.ok dir = false) ∨
    (s.Live b ∧ ∃ n k o, execDecode b dir s = .next (s.polled b n k o) ∧ n ≤ (s.ring b).count ∧
      o ≠ .error .bufferFull ∧ ∀ m, o = .message m → m.kind.dir = dir) := by
  by_cases hf : (s.ring b).fault = true
  · exact .inl ⟨hf, live_of_faulted s b hf _⟩
  · have hl : s.Live b := by simpa using hf
    have hle := scan_count_le b (s.cap b) (s.ring b)
    cases hp : ((s.ring b).scan b (s.cap b)).peek b (s.cap b) with
    | none =>
      refine .inr (.inr ⟨hl, _, 0, .pending, ?_, hle, by simp, by simp⟩)
      simp only [execDecode, live_of_live s b hl, hp, finish_next]
      rw [scan_eq]; rfl
    | some h =>
      cases hrow : s.cfg.lookupType dir (groupOf h) with
      | none =>
        refine .inr (.inr ⟨hl, ((s.ring b).scan b (s.cap b)).count - 1, 0, .error .unknownFrameType, ?_, by omega, by simp,
          by simp⟩)
        simp only [execDecode, live_of_live s b hl, hp, hrow, finish_next, Ring.popped]
        rw [scan_eq]; rfl
      | some row =>
        by_cases hok : row.ok dir = true
        · rw [execDecode_frame s b dir hl hp hrow hok]
          by_cases hc : ((s.ring b).scan b (s.cap b)).count < row.length
          · exact .inr (.inr ⟨hl, _, _, _, pollFrame_short s b dir row hc, hle, by simp, by simp⟩)
          · obtain ⟨o, _, _, h2, h3, h4⟩ := pollFrame_complete s b dir hok (by omega)
            refine .inr (.inr ⟨hl, _, _, o, h4, by omega, h2, fun m hm => ?_⟩)
            rw [h3 m hm]; exact ((row_ok_iff dir row).1 hok).1
        · refine .inr (.inl ⟨hl, ?_, row, (lookupType_some hrow).1, by simpa using hok⟩)
          simp [execDecode, live_of_live s b hl, hp, hrow, hok]

/-! ## Encode -/

theorem encodePayload_length (k : Catalog) (m : Message) (q : List Byte) (h : encodePayload k m.payload = some q) :
    q.length + 1 = m.kind.length := by
  cases m <;> simp only [Message.payload, encodePayload, Option.some.injEq, Option.map_eq_some_iff] at h
  case ctlSetParameter | remGetParameterResult | remGetStatisticResult =>
    split at h
    · simp at h
    · obtain ⟨w, _, rfl⟩ := Option.map_eq_some_iff.1 h
      rfl
  all_goals first | (subst h; rfl) | (obtain ⟨e, _, rfl⟩ := h; rfl)

/-- An encode of an operand that does not fit (R104). -/
theorem execEncode_full {m : Message} {row : TypeRow} {q : List Byte} (hl : s.Live b) (hrow : s.cfg.entryOf m.kind = some row)
    (hok : row.ok m.kind.dir = true) (hq : encodePayload (catalogOf s.cfg m.kind) m.payload = some q)
    (hf : s.cap b - (s.ring b).count < m.kind.length) : execEncode b m s = .next (s.setResult (.written false)) := by
  have hlen : row.length = m.kind.length := by rw [row_ok_length hok, (entryOf_some hrow).2]
  simp [execEncode, live_of_live s b hl, hrow, hok, hq, Ring.freeValue, hlen, hf]

/-- An encode of an operand that fits (R99). -/
theorem execEncode_fits {m : Message} {row : TypeRow} {q : List Byte} (hl : s.Live b) (hrow : s.cfg.entryOf m.kind = some row)
    (hok : row.ok m.kind.dir = true) (hq : encodePayload (catalogOf s.cfg m.kind) m.payload = some q)
    (hf : m.kind.length ≤ s.cap b - (s.ring b).count) :
    execEncode b m s =
      .next ((s.setRing b ((s.ring b).pushAll b (s.cap b) (typeByte row.code :: q))).setResult (.written true)) := by
  have hlen : row.length = m.kind.length := by rw [row_ok_length hok, (entryOf_some hrow).2]
  simp [execEncode, live_of_live s b hl, hrow, hok, hq, Ring.freeValue, hlen, Nat.not_lt.2 hf]

/-- All an encode can answer. -/
theorem execEncode_cases (b : Buf) (m : Message) (s : State) :
    ((s.ring b).fault = true ∧ execEncode b m s = .fault (.ringFaulted b)) ∨
    (∃ r, execEncode b m s = .refused r) ∨
    (s.Live b ∧ s.cap b - (s.ring b).count < m.kind.length ∧ execEncode b m s = .next (s.setResult (.written false))) ∨
    (s.Live b ∧ m.kind.length ≤ s.cap b - (s.ring b).count ∧ ∃ xs : List Byte, xs.length = m.kind.length ∧
      execEncode b m s = .next ((s.setRing b ((s.ring b).pushAll b (s.cap b) xs)).setResult (.written true))) := by
  by_cases hf : (s.ring b).fault = true
  · exact .inl ⟨hf, live_of_faulted s b hf _⟩
  · have hl : s.Live b := by simpa using hf
    cases hrow : s.cfg.entryOf m.kind with
    | none => exact .inr (.inl ⟨_, by simp only [execEncode, live_of_live s b hl, hrow]; rfl⟩)
    | some row =>
      by_cases hok : row.ok m.kind.dir = true
      · cases hq : encodePayload (catalogOf s.cfg m.kind) m.payload with
        | none => exact .inr (.inl ⟨_, by simp only [execEncode, live_of_live s b hl, hrow, hok, hq, if_true]; rfl⟩)
        | some q =>
          by_cases hfit : s.cap b - (s.ring b).count < m.kind.length
          · exact .inr (.inr (.inl ⟨hl, hfit, execEncode_full hl hrow hok hq hfit⟩))
          · refine .inr (.inr (.inr ⟨hl, by omega, _, ?_, execEncode_fits hl hrow hok hq (by omega)⟩))
            simp only [List.length_cons]
            exact encodePayload_length _ m q hq
      · refine .inr (.inl ⟨.illFormedTable m.kind.dir, ?_⟩)
        simp [execEncode, live_of_live s b hl, hrow, hok]

end Sys2Proof.Machine
end

