-- ==== Sys2Proof/Laws/Fetch.lean ====
section
/-! SUPPORT. What a frame that decodes is: its row, its bytes, its outcome and its own instruction (R59, R87, R94). -/

namespace Sys2Proof.Machine

variable {s : State} {b : Buf} {g rest : List Byte} {h : Byte}

/-- A scan of `g ++ h :: rest` with `g` unmarked and `h` marked leaves `h :: rest` (R82). -/
theorem scan_queue_marked (hN : 1 ≤ s.cap b) (hq : (s.ring b).queue b (s.cap b) = g ++ h :: rest)
    (hg : ∀ x ∈ g, x.marked = false) (hh : h.marked = true) :
    ((s.ring b).scan b (s.cap b)).queue b (s.cap b) = h :: rest := by
  rw [scan_queue hN, hq]
  clear hq
  induction g with
  | nil => simp [hh]
  | cons a g ih =>
    simp only [List.mem_cons, forall_eq_or_imp] at hg
    simp [hg.1, ih hg.2]

theorem scan_count_marked (hN : 1 ≤ s.cap b) (hq : (s.ring b).queue b (s.cap b) = g ++ h :: rest)
    (hg : ∀ x ∈ g, x.marked = false) (hh : h.marked = true) :
    ((s.ring b).scan b (s.cap b)).count = rest.length + 1 := by
  rw [← queue_length b (s.cap b), scan_queue_marked hN hq hg hh]; rfl

theorem scan_peek_marked (hN : 1 ≤ s.cap b) (hq : (s.ring b).queue b (s.cap b) = g ++ h :: rest)
    (hg : ∀ x ∈ g, x.marked = false) (hh : h.marked = true) :
    ((s.ring b).scan b (s.cap b)).peek b (s.cap b) = some h := by
  rw [peek_eq_head hN, scan_queue_marked hN hq hg hh]; rfl

/-- Known, fitting and complete frames decode (R59, R89). -/
theorem decodeFrame_ok (cfg : Config) (d : Nat) (b : Buf) (dir : Dir) (h : Byte) (rest : List Byte) (row : TypeRow)
    (hh : h.marked = true) (hrow : cfg.lookupType dir (groupOf h) = some row) (hok : row.ok dir = true)
    (hlen : row.length ≤ rest.length + 1) :
    ∃ i, decodeFrame cfg d b dir (h :: rest) = .ok i ∧ bufOf i = b ∧ opSelect i = none := by
  have hl := row_ok_length hok
  simp only [decodeFrame, hh, hrow, hok, if_true]
  cases hk : row.kind <;> (rw [hk] at hl; simp only [Kind.length, Kind.format, Format.length] at hl)
  all_goals first
    | exact ⟨_, rfl, rfl, rfl⟩
    | (rcases rest with _ | ⟨a, _ | ⟨b', _ | ⟨c, _ | ⟨e, r⟩⟩⟩⟩ <;>
        first | exact ⟨_, rfl, rfl, rfl⟩ | (simp at hlen; omega))

/-- A payload that decodes to `o` makes the frame's outcome. -/
theorem outcome_ident (cfg : Config) (b : Buf) (d : Nat) (row : TypeRow) (p : Byte) (r : List Byte) (mk : String → Message)
    (hf : row.format = .fi) (hmk : ∀ e, row.kind.make (.ident e) = some (mk e)) :
    drainedOutcome cfg b d row (p :: r) = some (identOutcome (catalogOf cfg row.kind) p mk) := by
  simp only [drainedOutcome, hf, decodePayload, identOutcome]
  cases lookupId (catalogOf cfg row.kind) p with
  | none => rfl
  | some e => simp [hmk]

theorem outcome_value (cfg : Config) (b : Buf) (d : Nat) (row : TypeRow) (p p0 p1 : Byte) (r : List Byte)
    (mk : String → PhysValue → Message) (hf : row.format = .fv) (hmk : ∀ e v, row.kind.make (.value e v) = some (mk e v)) :
    drainedOutcome cfg b d row (p :: p0 :: p1 :: r) =
      some (valueOutcome (catalogOf cfg row.kind) p (wireField cfg.markedPolicy b d p0 p1) mk) := by
  simp only [drainedOutcome, hf, decodePayload, valueOutcome]
  cases lookupId (catalogOf cfg row.kind) p with
  | none => rfl
  | some e =>
    simp only
    cases decodeValue e.kind (wireField cfg.markedPolicy b d p0 p1) with
    | none => rfl
    | some v => simp [hmk]

/-- A frame that decodes: its row is known and fits, its bytes are there, and its own instruction is `acceptFrame` of the
outcome its payload bytes have (R87, R94). -/
theorem decodeFrame_ok_cases {cfg : Config} {d : Nat} {b : Buf} {dir : Dir} {q : List Byte} {i : Instr}
    (hd : decodeFrame cfg d b dir q = .ok i) : ∃ h rest row o, q = h :: rest ∧ h.marked = true ∧
      cfg.lookupType dir (groupOf h) = some row ∧ row.ok dir = true ∧ row.length ≤ q.length ∧
      drainedOutcome cfg b d row (q.take row.length).tail = some o ∧
      ∀ u : State, u.cfg = cfg → exec i u = acceptFrame u b row.length o := by
  cases q with
  | nil => simp [decodeFrame] at hd
  | cons h rest =>
    unfold decodeFrame at hd
    simp only at hd
    split at hd
    · next hh =>
      split at hd
      · cases hd
      · next row hrow =>
        split at hd
        · next hok =>
          have hlen := row_ok_length hok
          obtain ⟨_, hfmt, _, _⟩ := (row_ok_iff _ _).1 hok
          suffices ∃ o, row.length ≤ (h :: rest).length ∧
              drainedOutcome cfg b d row ((h :: rest).take row.length).tail = some o ∧
              ∀ u : State, u.cfg = cfg → exec i u = acceptFrame u b row.length o by
            obtain ⟨o, h1, h2, h3⟩ := this
            exact ⟨h, rest, row, o, rfl, hh, hrow, hok, h1, h2, h3⟩
          rw [hlen]
          split at hd <;> (next hk =>
            first
            | (cases hd; done)
            | (injection hd with hd
               subst hd
               rw [hk] at hfmt ⊢
               first
               | exact ⟨_, by simp [Kind.length, Kind.format, Format.length],
                   outcome_ident _ _ _ _ _ _ _ hfmt (by rw [hk]; intro e; rfl), fun u hu => by subst hu; rw [hk]; rfl⟩
               | exact ⟨_, by simp [Kind.length, Kind.format, Format.length],
                   outcome_value _ _ _ _ _ _ _ _ _ hfmt (by rw [hk]; intro e v; rfl),
                   fun u hu => by subst hu; rw [hk]; rfl⟩
               | exact ⟨_, by simp [Kind.length, Kind.format, Format.length],
                   by simp only [drainedOutcome, hfmt, hk]; rfl, fun u hu => by subst hu; rfl⟩))
        · cases hd
    · cases hd

end Sys2Proof.Machine
end

