-- ==== Sys2Proof/Laws/PerInstr.lean ====
section
/-! SUPPORT. The statements made per instruction: every instruction has words in every well-formed configuration (R51, R101,
R163). -/

namespace Sys2Proof.Laws.EncodeDefined

/-- The instruction has an encoding in every well-formed configuration. -/
def Statement (i : Instr) : Prop := ∀ cfg : Config, cfg.wf = true → ∃ e, encode cfg i = some e

/-- A kind's frame is defined whatever its payload bytes: the table has the kind's entry (R60). -/
theorem frameOf_defined (cfg : Config) (h : cfg.wf = true) (b : Buf) (k : Kind) (p : List Byte) :
    ∃ e, frameOf cfg b k p = some e := by
  obtain ⟨r, hr⟩ := entryOf_total h k
  exact ⟨_, by rw [frameOf, hr]; rfl⟩

theorem ctlSetDebugLed (b : Buf) (p : Byte) : Statement (.ctlSetDebugLed b p) := fun cfg h => frameOf_defined cfg h _ _ _
theorem ctlGetParameter (b : Buf) (k : Byte) : Statement (.ctlGetParameter b k) := fun cfg h => frameOf_defined cfg h _ _ _
theorem ctlSetParameter (b : Buf) (k : Byte) (w : BitVec 14) : Statement (.ctlSetParameter b k w) := fun cfg h => frameOf_defined cfg h _ _ _
theorem ctlGetStatistic (b : Buf) (k : Byte) : Statement (.ctlGetStatistic b k) := fun cfg h => frameOf_defined cfg h _ _ _
theorem ctlResetStatistics (b : Buf) : Statement (.ctlResetStatistics b) := fun cfg h => frameOf_defined cfg h _ _ _
theorem ctlKeepAlive (b : Buf) : Statement (.ctlKeepAlive b) := fun cfg h => frameOf_defined cfg h _ _ _
theorem ctlRun (b : Buf) : Statement (.ctlRun b) := fun cfg h => frameOf_defined cfg h _ _ _
theorem ctlStop (b : Buf) : Statement (.ctlStop b) := fun cfg h => frameOf_defined cfg h _ _ _
theorem ctlPing (b : Buf) (n : BitVec 28) : Statement (.ctlPing b n) := fun cfg h => frameOf_defined cfg h _ _ _
theorem remGetParameterResult (b : Buf) (k : Byte) (w : BitVec 14) : Statement (.remGetParameterResult b k w) := fun cfg h => frameOf_defined cfg h _ _ _
theorem remGetStatisticResult (b : Buf) (k : Byte) (w : BitVec 14) : Statement (.remGetStatisticResult b k w) := fun cfg h => frameOf_defined cfg h _ _ _
theorem remLockFailed (b : Buf) : Statement (.remLockFailed b) := fun cfg h => frameOf_defined cfg h _ _ _
theorem remOcdTripped (b : Buf) : Statement (.remOcdTripped b) := fun cfg h => frameOf_defined cfg h _ _ _
theorem remPing (b : Buf) (n : BitVec 28) : Statement (.remPing b n) := fun cfg h => frameOf_defined cfg h _ _ _
theorem push (b : Buf) (x : Byte) : Statement (.push b x) := fun _ _ => ⟨_, rfl⟩
theorem pop (b : Buf) : Statement (.pop b) := fun _ _ => ⟨_, rfl⟩
theorem peek (b : Buf) : Statement (.peek b) := fun _ _ => ⟨_, rfl⟩
theorem count (b : Buf) : Statement (.count b) := fun _ _ => ⟨_, rfl⟩
theorem free (b : Buf) : Statement (.free b) := fun _ _ => ⟨_, rfl⟩
theorem decode (b : Buf) (dir : Dir) : Statement (.decode b dir) := fun _ _ => ⟨_, rfl⟩
theorem encode (b : Buf) (m : Message) : Statement (.encode b m) := fun _ _ => ⟨_, rfl⟩

end Sys2Proof.Laws.EncodeDefined
end

