-- ==== Sys2Proof/Tests/Slice0.lean ====
section
/-! SUPPORT. Tests. Expected results are the spec's: the encodings of 30_encoding.md written out bit by bit, the vectors of
95_test_vectors.md (their ids in the names), and, for each statement with hypotheses, a witness that meets them. -/

open Sys2Proof Sys2Proof.Machine

namespace Sys2Proof.Tests

/-! ## Helpers -/

/-- REF with both capacities `n`. -/
def refSized (n : Nat) : Config := { Config.ref with nRx := n, nTx := n }

/-- A device of capacities `n`, both cursors first at `cur`, the bytes `xs` pushed into both instances. -/
def devAt (n cur : Nat) (xs : List Byte) : State :=
  { State.resetWith (refSized n) with
    rxb := ({ Ring.reset with wcur := cur } : Ring).pushAll .rxb n xs
    txb := ({ Ring.reset with wcur := cur } : Ring).pushAll .txb n xs }

/-- The same from cursor 0 with capacities 16. -/
def dev (xs : List Byte) : State := devAt 16 0 xs

/-- The device with one request pending. -/
def asks (s : State) (i : Instr) : State :=
  match encode s.cfg i with
  | some (.request r) => { s with schedule := [.request r] }
  | _ => s

/-- Result, bytes of `b` and cursor of `b` after an instruction. -/
def after (b : Buf) : Answer → Option (Result × List Byte × Nat)
  | .next t => some (t.result, (t.ring b).queue b (t.cap b), (t.ring b).wcur)
  | _ => none

/-- A poll of `b`: its outcome and the bytes left. -/
def polls (dir : Dir) (xs : List Byte) : Option (Result × List Byte) :=
  (after .rxb (exec (.decode .rxb dir) (dev xs))).map fun r => (r.1, r.2.1)

/-- An encode into an empty TXB: its result and the bytes written. -/
def sends (m : Message) : Option (Result × List Byte) :=
  (after .txb (exec (.encode .txb m) (dev []))).map fun r => (r.1, r.2.1)

/-! ## Words, bit by bit (R51 formats, R62 and R63 codes, R163 select numbers) -/

theorem test_word_ctlSetDebugLed : decodeTableWord 16 0b00000001_10000000 = some (.ctlSetDebugLed .rxb 1#8) := by decide
theorem test_word_ctlGetParameter : decodeTableWord 16 0b00000110_10000001 = some (.ctlGetParameter .rxb 6#8) := by decide
theorem test_word_ctlSetParameter :
    decodeTableWord 32 0b01000000_00000001_00000110_10000010 = some (.ctlSetParameter .rxb 6#8 8193#14) := by decide
theorem test_word_ctlGetStatistic : decodeTableWord 16 0b00000001_10000011 = some (.ctlGetStatistic .rxb 1#8) := by decide
theorem test_word_ctlResetStatistics : decodeTableWord 8 0b10000100 = some (.ctlResetStatistics .rxb) := by decide
theorem test_word_ctlKeepAlive : decodeTableWord 8 0b10000101 = some (.ctlKeepAlive .rxb) := by decide
theorem test_word_ctlRun : decodeTableWord 8 0b10000110 = some (.ctlRun .rxb) := by decide
theorem test_word_ctlStop : decodeTableWord 8 0b10000111 = some (.ctlStop .rxb) := by decide
theorem test_word_ctlPing :
    decodeTableWord 40 0b00001001_00001101_00001010_01100111_11111111 = some (.ctlPing .rxb 19088743#28) := by decide
theorem test_word_push : decodeTableWord 8 0b00000000 = some (.push .rxb 0#8) := by decide
theorem test_word_pop : decodeTableWord 8 0b00000001 = some (.pop .rxb) := by decide
theorem test_word_peek : decodeTableWord 8 0b00000010 = some (.peek .rxb) := by decide
theorem test_word_count : decodeTableWord 8 0b00000011 = some (.count .rxb) := by decide
theorem test_word_free : decodeTableWord 8 0b00000100 = some (.free .rxb) := by decide
theorem test_word_decode : decodeTableWord 8 0b00000101 = some (.decode .rxb .ctl) := by decide
theorem test_word_encode : decodeTableWord 8 0b00000110 = some (.encode .txb (.remPing 0#28)) := by decide
theorem test_word_none : decodeTableWord 8 0b00000111 = none ∧ decodeTableWord 8 0b00001000 = none := by decide
theorem test_word_remGetParameterResult : decodeFrame Config.ref 0 .rxb .rem
    [0b10000000#8, 0b00000000#8, 0b01101000#8, 0b00000111#8] = .ok (.remGetParameterResult .rxb 0#8 1000#14) := by decide
theorem test_word_remGetStatisticResult : decodeFrame Config.ref 0 .rxb .rem
    [0b10000001#8, 0b00000001#8, 0b00000000#8, 0b01000000#8] = .ok (.remGetStatisticResult .rxb 1#8 8192#14) := by decide
theorem test_word_remLockFailed : decodeFrame Config.ref 0 .rxb .rem [0b10000010#8] = .ok (.remLockFailed .rxb) := by decide
theorem test_word_remOcdTripped : decodeFrame Config.ref 0 .rxb .rem [0b10000011#8] = .ok (.remOcdTripped .rxb) := by decide
theorem test_word_remPing : decodeFrame Config.ref 0 .rxb .rem
    [0b11111111#8, 0b00000000#8, 0b00000000#8, 0b00000001#8, 0b00000000#8] = .ok (.remPing .rxb 16384#28) := by decide

/-- Bytes that are no frame are rejected by name (R64, R65, R91, U17). -/
theorem test_word_rejections :
    decodeFrame Config.ref 0 .rxb .ctl [] = .error .noByte ∧
    decodeFrame Config.ref 0 .rxb .ctl [0x02#8] = .error .unmarkedHead ∧
    decodeFrame Config.ref 0 .rxb .rem [0x84#8] = .error .unknownTypeCode ∧
    decodeFrame Config.ref 0 .rxb .ctl [0x82#8, 0x01#8, 0x60#8] = .error .incompleteFrame ∧
    decodeFrame { Config.ref with ctlTable := [⟨0#7, .ctlRun, .fb, 2⟩] } 0 .rxb .ctl [0x80#8, 0#8] =
      .error .illFormedTableRow := by decide

/-- Encoded words are the spec's bytes (MC7, MC28). -/
theorem test_encode_words :
    encode Config.ref (.ctlSetParameter .txb 1#8 95#14) = some (.frame .txb .ctl [0x82#8, 0x01#8, 0x5F#8, 0x00#8]) ∧
    encode Config.ref (.ctlPing .txb 19088743#28) = some (.frame .txb .ctl [0xFF#8, 0x67#8, 0x0A#8, 0x0D#8, 0x09#8]) := by
  decide

/-! ## WellFormed: each check refuses an ill-formed term -/

theorem test_wf_ref : Config.ref.wf = true := by decide
theorem test_wf_capacity_zero : (refSized 0).wf = false ∧ { Config.ref with nTx := 0 }.wf = false := by decide
theorem test_wf_row_format : TypeRow.ok .ctl ⟨0#7, .ctlRun, .fb, 2⟩ = false := by decide
theorem test_wf_row_length : TypeRow.ok .ctl ⟨0#7, .ctlRun, .f0, 2⟩ = false := by decide
theorem test_wf_row_direction : TypeRow.ok .rem ⟨0#7, .ctlRun, .f0, 1⟩ = false := by decide
theorem test_wf_row_ping_code :
    TypeRow.ok .rem ⟨0x7E#7, .remPing, .fs, 5⟩ = false ∧ TypeRow.ok .ctl ⟨0x7F#7, .ctlRun, .f0, 1⟩ = false := by decide
theorem test_wf_table_row : TypeTable.wf .rem (⟨9#7, .ctlRun, .f0, 1⟩ :: Config.refRemTable) = false := by decide
theorem test_wf_table_duplicate_code :
    TypeTable.wf .rem (⟨1#7, .remLockFailed, .f0, 1⟩ :: Config.refRemTable.eraseIdx 2) = false := by decide
theorem test_wf_table_duplicate_kind : TypeTable.wf .rem (⟨9#7, .remLockFailed, .f0, 1⟩ :: Config.refRemTable) = false := by decide
theorem test_wf_table_missing_kind : TypeTable.wf .rem Config.refRemTable.tail = false := by decide
theorem test_wf_scale_zero : (EntryKind.scaled 0 false 0 16383).wf = false := by decide
theorem test_wf_bounds_reversed : (EntryKind.scaled 1 false 2 1).wf = false := by decide
theorem test_wf_unsigned_range :
    (EntryKind.scaled 1 false (-1) 5).wf = false ∧ (EntryKind.scaled 1 false 0 16384).wf = false := by decide
theorem test_wf_signed_range :
    (EntryKind.scaled 1 true (-8193) 5).wf = false ∧ (EntryKind.scaled 1 true 0 8192).wf = false := by decide
theorem test_wf_enum_duplicate_raw : (EntryKind.enum [(0#14, "A"), (0#14, "B")]).wf = false := by decide
theorem test_wf_catalog_entry : Catalog.wf [⟨0#7, "X", "", .scaled 0 false 0 1⟩] = false := by decide
theorem test_wf_catalog_duplicate_id :
    Catalog.wf [⟨0#7, "X", "", .scaled 1 false 0 1⟩, ⟨0#7, "Y", "", .scaled 1 false 0 1⟩] = false := by decide
theorem test_wf_catalog_duplicate_name :
    Catalog.wf [⟨0#7, "X", "", .scaled 1 false 0 1⟩, ⟨1#7, "X", "", .scaled 1 false 0 1⟩] = false := by decide
theorem test_wf_message_ident :
    (Message.ctlGetParameter "Nothing").wf Config.ref = false ∧
    (Message.ctlGetStatistic "CurrentLimit").wf Config.ref = false := by decide
theorem test_wf_message_value :
    (Message.ctlSetParameter "CurrentLimit" (.member "RunModeA")).wf Config.ref = false ∧
    (Message.remGetParameterResult "RefRunMode" (.scaled 0)).wf Config.ref = false ∧
    (Message.remGetParameterResult "RefRunMode" (.member "RunModeC")).wf Config.ref = false ∧
    (Message.remGetStatisticResult "RefRunMode" (.member "RunModeA")).wf Config.ref = false := by decide
theorem test_wf_instr_bool_byte : (Instr.ctlSetDebugLed .rxb 2#8).wf Config.ref = false := by decide
theorem test_wf_instr_marked_id : (Instr.remGetStatisticResult .rxb 0x80#8 0#14).wf Config.ref = false := by decide
theorem test_wf_instr_operand : (Instr.encode .txb (.ctlGetParameter "Nothing")).wf Config.ref = false := by decide

/-! ## The ring-buffer operations (RB1 to RB14) -/

theorem test_pop_empty_RB1 : after .rxb (exec (.pop .rxb) (devAt 4 0 [])) = some (.empty, [], 0) := by decide
theorem test_pop_wrapped_RB8 :
    after .rxb (exec (.pop .rxb) (devAt 4 2 [0x11#8, 0x22#8, 0x33#8])) = some (.byte 0x11#8, [0x22#8, 0x33#8], 1) := by
  decide
theorem test_peek_empty_RB2 : after .rxb (exec (.peek .rxb) (devAt 4 0 [])) = some (.empty, [], 0) := by decide
theorem test_peek_keeps_RB5 :
    after .rxb (exec (.peek .rxb) (devAt 4 0 [0x00#8])) = some (.byte 0x00#8, [0x00#8], 1) := by decide
theorem test_push_wraps_RB6 :
    after .txb (exec (.push .txb 0xAA#8) (devAt 4 2 [0x7E#8])) = some (.nothing, [0x7E#8, 0xAA#8], 0) := by decide
/-- RB10: the oldest byte is overwritten and the mark is set. -/
theorem test_push_full_RB10 : ∃ t, exec (.push .rxb 5#8) (devAt 4 0 [1#8, 2#8, 3#8, 4#8]) = .next t ∧
    t.rxb.storage.read 0 = some 5#8 ∧ t.rxb.fault = true := ⟨_, rfl, rfl, rfl⟩
/-- RB7: an occupied element reads as its byte; the one popped before it is free. -/
theorem test_element_RB7 : let B := (devAt 4 2 [0x7E#8, 0xAA#8]).rxb
    B.element .rxb 4 2 = 0x7E#8 ∧ B.element .rxb 4 3 = 0xAA#8 ∧ B.popped.occupied 4 2 = false ∧
      B.popped.element .rxb 4 3 = 0xAA#8 := by decide
theorem test_count_full_RB9 : after .rxb (exec (.count .rxb) (devAt 4 0 [1#8, 2#8, 3#8, 4#8])) =
    some (.number 4, [1#8, 2#8, 3#8, 4#8], 0) := by decide
theorem test_free_RB14 :
    after .rxb (exec (.free .rxb) (devAt 8 0 [1#8, 2#8, 3#8])) = some (.number 5, [1#8, 2#8, 3#8], 3) := by decide

/-! ## The poll (DC, MC, MR) -/

theorem test_decode_garbage_DC4 : polls .ctl [0x05#8, 0x06#8, 0xFF#8, 0x2C#8] = some (.poll .pending, [0xFF#8, 0x2C#8]) := by
  decide
theorem test_decode_unknown_DC11 :
    polls .ctl [0x90#8, 0x05#8, 0x06#8, 0x84#8] =
      some (.poll (.error .unknownFrameType), [0x05#8, 0x06#8, 0x84#8]) := by decide
theorem test_ctlSetDebugLed_DC19 : polls .ctl [0x80#8, 0x80#8] = some (.poll (.message (.ctlSetDebugLed true)), []) := by
  decide
theorem test_ctlSetDebugLed_MC2 : polls .ctl [0x80#8, 0x00#8] = some (.poll (.message (.ctlSetDebugLed false)), []) := by
  decide
theorem test_ctlGetParameter_MC5 :
    polls .ctl [0x81#8, 0x06#8] = some (.poll (.message (.ctlGetParameter "RefSignedOffset")), []) := by decide
theorem test_ctlGetParameter_DC18 : polls .ctl [0x81#8, 0x81#8] = some (.poll (.error .unknownCatalogId), []) := by decide
theorem test_ctlSetParameter_MC17 : polls .ctl [0x82#8, 0x06#8, 0x00#8, 0x40#8] =
    some (.poll (.message (.ctlSetParameter "RefSignedOffset" (.scaled (-8192)))), []) := by decide +kernel
theorem test_ctlSetParameter_DC10 : polls .ctl [0x82#8, 0x05#8, 0x00#8, 0x01#8, 0x87#8] =
    some (.poll (.error .invalidEnumeratedValue), [0x87#8]) := by decide +kernel
theorem test_ctlGetStatistic_MC20 :
    polls .ctl [0x83#8, 0x01#8] = some (.poll (.message (.ctlGetStatistic "RefSignedStat")), []) := by decide
theorem test_ctlGetStatistic_DC8 : polls .ctl [0x83#8, 0x02#8] = some (.poll (.error .unknownCatalogId), []) := by decide
theorem test_ctlResetStatistics_MC21 : polls .ctl [0x84#8] = some (.poll (.message .ctlResetStatistics), []) := by decide
theorem test_ctlKeepAlive_MC22 : polls .ctl [0x85#8] = some (.poll (.message .ctlKeepAlive), []) := by decide
theorem test_ctlRun_MC23 : polls .ctl [0x86#8] = some (.poll (.message .ctlRun), []) := by decide
theorem test_ctlStop_MC24 : polls .ctl [0x87#8] = some (.poll (.message .ctlStop), []) := by decide
theorem test_ctlPing_DC21 :
    polls .ctl [0xFF#8, 0xAC#8, 0x02#8, 0x00#8, 0x00#8] = some (.poll (.message (.ctlPing 300#28)), []) := by decide
theorem test_remGetParameterResult_MR1 : polls .rem [0x80#8, 0x00#8, 0x68#8, 0x07#8] =
    some (.poll (.message (.remGetParameterResult "StartupFrequency" (.scaled (125 / 2)))), []) := by decide +kernel
theorem test_remGetParameterResult_DC25 :
    polls .rem [0x80#8, 0x05#8, 0x05#8, 0x00#8] = some (.poll (.error .invalidEnumeratedValue), []) := by decide +kernel
theorem test_remGetStatisticResult_MR5 : polls .rem [0x81#8, 0x01#8, 0x68#8, 0x7F#8] =
    some (.poll (.message (.remGetStatisticResult "RefSignedStat" (.scaled (-3 / 2)))), []) := by decide +kernel
theorem test_remGetStatisticResult_DC24 :
    polls .rem [0x81#8, 0x02#8, 0x00#8, 0x00#8] = some (.poll (.error .unknownCatalogId), []) := by decide
theorem test_remLockFailed_MR8 : polls .rem [0x82#8] = some (.poll (.message .remLockFailed), []) := by decide
theorem test_remOcdTripped_MR9 : polls .rem [0x83#8] = some (.poll (.message .remOcdTripped), []) := by decide
theorem test_remPing_MR11 :
    polls .rem [0xFF#8, 0x00#8, 0x00#8, 0x01#8, 0x00#8] = some (.poll (.message (.remPing 16384#28)), []) := by decide

/-! ## Encode (EN, MC, MR) -/

theorem test_encode_saturates_MC8 : sends (.ctlSetParameter "CurrentLimit" (.scaled 1000)) =
    some (.written true, [0x82#8, 0x01#8, 0x7F#8, 0x7F#8]) := by decide +kernel
/-- EN4 and EN5: an exact fit, then nothing is written. -/
theorem test_encode_full_EN5 :
    after .txb (exec (.encode .txb .ctlRun) (devAt 2 0 [1#8])) = some (.written true, [1#8, 0x86#8], 0) ∧
    after .txb (exec (.encode .txb .ctlStop) (devAt 2 0 [1#8, 2#8])) = some (.written false, [1#8, 2#8], 0) := by decide

/-! ## Values (FQ, FC, FE) -/

theorem test_values_truncate_toward_zero : -- FQ16, FQ22, FQ11
    encodeValue (.scaled 1 true (-8192) 8191) (.scaled (-27 / 10)) = some 16382#14 ∧
    encodeValue (.scaled 16 true (-8192) 8191) (.scaled (-3 / 100)) = some 0#14 ∧
    encodeValue (.scaled 16383 false 0 16383) (.scaled (1 / 2)) = some 8191#14 := by decide +kernel
theorem test_values_clamp : -- FQ3, FQ9, FQ18, FQ20
    encodeValue (.scaled 32 false 0 16383) (.scaled (-3 / 2)) = some 0#14 ∧
    encodeValue (.scaled 16383 false 0 16383) (.scaled 2) = some 16383#14 ∧
    encodeValue (.scaled 1 true (-8192) 8191) (.scaled (-9000)) = some 8192#14 ∧
    encodeValue (.scaled 1 true (-8192) 8191) (.scaled 9000) = some 8191#14 := by decide +kernel
theorem test_values_sign : -- FC15, FC16, FC18, FC19, C1
    signExtend14 8191#14 = 8191 ∧ signExtend14 8192#14 = -8192 ∧ signExtend14 16360#14 = -24 ∧
    signExtend14 16383#14 = -1 ∧ signExtend14 32#14 = 32 := by decide
theorem test_port_codes : -- FX7
    pollCode .pending = 0#2 ∧ pollCode (.message .ctlRun) = 1#2 ∧ pollCode (.error .unknownCatalogId) = 2#2 ∧
    errorCode .unknownFrameType = 0#2 ∧ errorCode .unknownCatalogId = 1#2 ∧ errorCode .invalidEnumeratedValue = 2#2 ∧
    errorCode .bufferFull = 3#2 := by decide

/-- The port view of one instance (R80): 1 with the byte, 0 for `Empty`. -/
theorem test_port_dvalid :
    ({ dev [] with result := .byte 7#8 } : State).dvalid = some true ∧ ({ dev [] with result := .byte 7#8 } : State).dout = some 7#8 ∧
    ({ dev [] with result := .empty } : State).dvalid = some false ∧ ({ dev [] with result := .empty } : State).dout = none := by
  decide

/-! ## Steps -/

/-- A frame word placed after reset is polled by the very next step. -/
theorem test_step_frame_word :
    after .rxb (step (State.reset.withFetchWord 40 0b00000000_00000000_00000010_00101100_11111111)) =
      some (.poll (.message (.ctlPing 300#28)), [], 5) := by decide
theorem test_step_select_word : after .rxb (step (State.reset.withFetchWord 8 4)) = some (.number 16, [], 0) := by decide
/-- Select 7 performs no operation (U12). -/
theorem test_step_select_seven : step { dev [1#8] with schedule := [.request (Request.idle 7#3 .rxb)] } = .next (dev [1#8]) :=
  rfl
/-- The refusals: a message that is no operand, a table without the kind. -/
theorem test_refusals :
    exec (.encode .txb (.ctlGetParameter "Nothing")) (dev []) = .refused .notAnOperand ∧
    exec (.encode .txb .ctlRun) (State.resetWith { Config.ref with ctlTable := [] }) = .refused (.illFormedTable .ctl) :=
  ⟨rfl, rfl⟩

/-! ## Witnesses: a state and operands that meet the hypotheses of each statement, each clause at a boundary -/

/-- A device of capacity 4 whose buffers hold `[1, 2, 3, 4]` across the wrap. -/
def full4 : State := devAt 4 3 [1#8, 2#8, 3#8, 4#8]

/-- A device whose RXB has been pushed on while full. -/
def overrun4 : State := { full4 with rxb := full4.rxb.push .rxb 4 5#8 }

/-- The device of `dev` with an event pending. -/
def pending (xs : List Byte) (e : Event) : State := { dev xs with schedule := [e] }

theorem witness_RunTimeResetEmptiesOneBuffer :
    { overrun4 with schedule := [.reset .rxb] }.schedule = .reset .rxb :: [] ∧ Buf.txb ≠ Buf.rxb := ⟨rfl, by decide⟩
theorem witness_PushWritesAtTheCursor : (devAt 4 3 [1#8, 2#8, 3#8]).Live .rxb ∧
    ((devAt 4 3 [1#8, 2#8, 3#8]).ring .rxb).count < (devAt 4 3 [1#8, 2#8, 3#8]).cap .rxb := by decide
theorem witness_PushOnFullSetsTheFaultMark : full4.Live .txb ∧ (full4.ring .txb).count = full4.cap .txb := by decide
theorem witness_FaultedBufferStopsEveryInstruction : (overrun4.ring (bufOf (.decode .rxb .ctl))).fault = true := rfl
theorem witness_PopReturnsTheOldestByte : (dev []).Live .rxb ∧ ((dev []).ring .rxb).count = 0 ∧
    full4.Live .rxb ∧ 0 < (full4.ring .rxb).count := by decide
theorem witness_PeekKeepsTheOldestByte : (dev []).Live .txb ∧ ((dev []).ring .txb).count = 0 ∧
    (dev [1#8]).Live .txb ∧ 0 < ((dev [1#8]).ring .txb).count := by decide
theorem witness_CountAndFreeAreExact : full4.Live .rxb ∧ (full4.ring .rxb).count ≤ full4.cap .rxb := by decide
theorem witness_RingRefinesABoundedQueue :
    ((devAt 1 0 []).Live .rxb ∧ 1 ≤ (devAt 1 0 []).cap .rxb ∧ ((devAt 1 0 []).ring .rxb).queue .rxb 1 = [] ∧
      ([] : List Byte).length < (devAt 1 0 []).cap .rxb) ∧
    (full4.Live .rxb ∧ 1 ≤ full4.cap .rxb ∧ (full4.ring .rxb).queue .rxb 4 = [1#8, 2#8, 3#8, 4#8]) := by decide
theorem witness_BurstsComeBackInOrder : 1 ≤ 4 ∧ ({ Ring.reset with wcur := 3 } : Ring).wcur < 4 ∧
    ({ Ring.reset with wcur := 3 } : Ring).Fresh ∧ [1#8, 2#8, 3#8, 4#8].length ≤ 4 :=
  ⟨by decide, by decide, ⟨rfl, rfl⟩, by decide⟩
/-- Two devices with different cursors and element positions, the same queue. -/
theorem witness_CursorsAndFreeElementsAreUnobservable :
    (∀ b, 1 ≤ (devAt 4 0 [7#8]).cap b) ∧ (devAt 4 0 [7#8]).Same (devAt 4 3 [7#8]) ∧ devAt 4 0 [7#8] ≠ devAt 4 3 [7#8] :=
  ⟨fun b => by cases b <;> decide,
    ⟨rfl, rfl, rfl, fun b => by cases b <;> exact ⟨rfl, rfl, fun _ => by decide⟩⟩, by decide⟩
theorem witness_ScanDropsTheGarbagePrefix : 1 ≤ 16 ∧
    0x82#8 ∈ (((dev [0x7F#8, 0x82#8]).rxb.scan .rxb 16).queue .rxb 16).head? := by decide
theorem witness_PollOfGarbageIsPending : (dev [0x00#8, 0x7F#8]).Live .rxb ∧ 1 ≤ (dev [0x00#8, 0x7F#8]).cap .rxb ∧
    ∀ x ∈ ((dev [0x00#8, 0x7F#8]).ring .rxb).queue .rxb 16, x.marked = false := by decide
theorem witness_UnknownTypeCodeCostsOneByte : (dev [0x7F#8, 0x88#8]).Live .rxb ∧ 1 ≤ (dev [0x7F#8, 0x88#8]).cap .rxb ∧
    ((dev [0x7F#8, 0x88#8]).ring .rxb).queue .rxb 16 = [0x7F#8] ++ 0x88#8 :: [] ∧ (∀ x ∈ [0x7F#8], Byte.marked x = false) ∧
    Byte.marked 0x88#8 = true ∧ (dev [0x7F#8, 0x88#8]).cfg.lookupType .ctl (groupOf 0x88#8) = none := by decide
theorem witness_IncompleteFrameWaits :
    let s := dev [0x05#8, 0xFF#8, 0x2C#8, 0x02#8, 0x00#8]
    s.Live .rxb ∧ 1 ≤ s.cap .rxb ∧
    (s.ring .rxb).queue .rxb (s.cap .rxb) = [0x05#8] ++ 0xFF#8 :: [0x2C#8, 0x02#8, 0x00#8] ∧
    (∀ x ∈ [0x05#8], Byte.marked x = false) ∧ Byte.marked 0xFF#8 = true ∧
    s.cfg.lookupType .ctl (groupOf 0xFF#8) = some ⟨0x7F#7, .ctlPing, .fs, 5⟩ ∧
    TypeRow.ok .ctl ⟨0x7F#7, .ctlPing, .fs, 5⟩ = true ∧ [0x2C#8, 0x02#8, 0x00#8].length + 1 < 5 := by decide
theorem witness_CompleteFrameIsConsumedWhole :
    let s := dev [0x05#8, 0x82#8, 0x09#8, 0x60#8, 0x00#8]
    s.Live .rxb ∧ 1 ≤ s.cap .rxb ∧
    (s.ring .rxb).queue .rxb (s.cap .rxb) = [0x05#8] ++ 0x82#8 :: [0x09#8, 0x60#8, 0x00#8] ∧
    (∀ x ∈ [0x05#8], Byte.marked x = false) ∧ Byte.marked 0x82#8 = true ∧
    s.cfg.lookupType .ctl (groupOf 0x82#8) = some ⟨0x02#7, .ctlSetParameter, .fv, 4⟩ ∧
    TypeRow.ok .ctl ⟨0x02#7, .ctlSetParameter, .fv, 4⟩ = true ∧ 4 ≤ [0x09#8, 0x60#8, 0x00#8].length + 1 ∧
    lookupId (catalogOf s.cfg .ctlSetParameter) 0x09#8 = none := by decide
theorem witness_CompleteFrameIsConsumedWhole_enum :
    let s := dev [0x82#8, 0x05#8, 0x02#8, 0x00#8]
    s.Live .rxb ∧ 1 ≤ s.cap .rxb ∧ (s.ring .rxb).queue .rxb (s.cap .rxb) = [] ++ 0x82#8 :: [0x05#8, 0x02#8, 0x00#8] ∧
    s.cfg.lookupType .ctl (groupOf 0x82#8) = some ⟨0x02#7, .ctlSetParameter, .fv, 4⟩ ∧
    lookupId (catalogOf s.cfg .ctlSetParameter) 0x05#8 =
      some ⟨5#7, "RefRunMode", "none", .enum [(0#14, "RunModeA"), (1#14, "RunModeB")]⟩ ∧
    (∀ p ∈ [(0#14, "RunModeA"), (1#14, "RunModeB")], p.1 ≠ wireField s.cfg.markedPolicy .rxb 0 0x02#8 0x00#8) := by decide
theorem witness_PollIsTheFramesOwnInstruction : (dev [0x05#8, 0x83#8, 0x01#8]).Live .rxb ∧
    1 ≤ (dev [0x05#8, 0x83#8, 0x01#8]).cap .rxb ∧
    ∃ u, fetchFrame (dev [0x05#8, 0x83#8, 0x01#8]) .rxb .ctl = .ok (.ctlGetStatistic .rxb 1#8, u) :=
  ⟨by decide, by decide, _, rfl⟩
theorem witness_KnownCompleteFramesAreFetched :
    let s := dev [0x33#8, 0x83#8]
    1 ≤ s.cap .rxb ∧ (s.ring .rxb).queue .rxb (s.cap .rxb) = [0x33#8] ++ 0x83#8 :: [] ∧
    (∀ x ∈ [0x33#8], Byte.marked x = false) ∧ Byte.marked 0x83#8 = true ∧
    s.cfg.lookupType .rem (groupOf 0x83#8) = some ⟨0x03#7, .remOcdTripped, .f0, 1⟩ ∧
    TypeRow.ok .rem ⟨0x03#7, .remOcdTripped, .f0, 1⟩ = true ∧ 1 ≤ ([] : List Byte).length + 1 := by decide
theorem witness_EveryPollAnswers : (dev [0x33#8]).cfg.wf = true ∧ (dev [0x33#8]).Live .rxb ∧
    ∃ t, exec (.decode .rxb .rem) (dev [0x82#8]) = .next t ∧ t.result = .poll (.message .remLockFailed) :=
  ⟨by decide, rfl, _, rfl, rfl⟩
/-- The smallest capacity that holds every frame (R170), full and starting with an incomplete frame behind garbage. -/
theorem witness_PollOfFullBufferFreesSpace :
    let s := devAt 5 2 [0x33#8, 0xFF#8, 0x01#8, 0x02#8, 0x03#8]
    s.cfg.wf = true ∧ s.Live .rxb ∧ (s.ring .rxb).count = s.cap .rxb ∧ WellSized (s.cap .rxb) (s.cfg.table .ctl) :=
  ⟨by decide, rfl, rfl, by unfold WellSized; decide⟩
theorem witness_StepRunsTheNextRequest : (dev []).schedule = [] ∧
    (pending [] (.request (Request.idle 6#3 .txb))).schedule = .request (Request.idle 6#3 .txb) :: [] ∧
    decodeRequest (Request.idle 6#3 .txb) = .ok (.encode .txb (.ctlPing 0#28)) ∧
    decodeRequest (Request.idle 7#3 .txb) = .error .noSuchOperation := ⟨rfl, rfl, rfl, rfl⟩
theorem witness_StepRunsTheFrameAtTheHead :
    let s := pending [0x86#8] (.request (Request.idle 5#3 .rxb))
    s.schedule = .request (Request.idle 5#3 .rxb) :: [] ∧ (Request.idle 5#3 .rxb).op = 5#3 ∧ s.Live .rxb ∧
    1 ≤ s.cap .rxb ∧ ∃ u, fetchFrame { s with schedule := [] } .rxb .ctl = .ok (.ctlRun .rxb, u) :=
  ⟨rfl, rfl, rfl, by decide, _, rfl⟩
theorem witness_FramesWithoutPayloadDeliver : (dev [0x84#8]).Live .rxb ∧ 1 ≤ ((dev [0x84#8]).ring .rxb).count := by decide
theorem witness_SetDebugLedDelivers :
    (dev [0x80#8, 0x01#8]).Live .rxb ∧ 2 ≤ ((dev [0x80#8, 0x01#8]).ring .rxb).count := by decide
theorem witness_IdFramesLookTheIdUp :
    (dev [0x81#8, 0x06#8]).Live .rxb ∧ 2 ≤ ((dev [0x81#8, 0x06#8]).ring .rxb).count ∧
    lookupId (dev []).cfg.paramCatalog 6#8 = some ⟨6#7, "RefSignedOffset", "none", .scaled 1 true (-8192) 8191⟩ ∧
    lookupId (dev []).cfg.paramCatalog 7#8 = none ∧
    lookupId (dev []).cfg.statCatalog 1#8 = some ⟨1#7, "RefSignedStat", "none", .scaled 16 true (-8192) 8191⟩ ∧
    lookupId (dev []).cfg.statCatalog 0x81#8 = none := by decide
theorem witness_ValueFramesDecodeTheValue :
    let s := dev [0x82#8, 0x01#8, 0x60#8, 0x00#8]
    let c := s.cfg.paramCatalog
    s.Live .rxb ∧ 4 ≤ (s.ring .rxb).count ∧ lookupId c 7#8 = none ∧
    lookupId c 0#8 = some ⟨0#7, "StartupFrequency", "kHz", .scaled 16 false 0 16383⟩ ∧
    lookupId c 6#8 = some ⟨6#7, "RefSignedOffset", "none", .scaled 1 true (-8192) 8191⟩ ∧
    lookupId c 5#8 = some ⟨5#7, "RefRunMode", "none", .enum [(0#14, "RunModeA"), (1#14, "RunModeB")]⟩ ∧
    [(0#14, "RunModeA"), (1#14, "RunModeB")].find? (fun p => p.1 == 1#14) = some (1#14, "RunModeB") ∧
    (∀ p ∈ [(0#14, "RunModeA"), (1#14, "RunModeB")], p.1 ≠ 2#14) := by decide
theorem witness_PingFramesDeliverTheSequence : (dev [0xFF#8, 1#8, 2#8, 3#8, 4#8]).Live .rxb ∧
    5 ≤ ((dev [0xFF#8, 1#8, 2#8, 3#8, 4#8]).ring .rxb).count := by decide
theorem witness_ShortFramesWait : (dev []).Live .rxb ∧ ((dev []).ring .rxb).count < 1 ∧
    ((dev [0x81#8]).ring .rxb).count < 2 ∧ ((dev [0x82#8, 1#8, 2#8]).ring .rxb).count < 4 ∧
    ((dev [0xFF#8, 1#8, 2#8, 3#8]).ring .rxb).count < 5 := by decide
/-- One free byte less than the frame, and exactly the frame (EN2, EN4). -/
theorem witness_EncodeIsAllOrNothing :
    let m := Message.ctlSetParameter "CurrentLimit" (.scaled 3)
    let short := devAt 8 7 [1#8, 2#8, 3#8, 4#8, 5#8]
    let exact := devAt 8 7 [1#8, 2#8, 3#8, 4#8]
    short.cfg.wf = true ∧ m.wf short.cfg = true ∧ short.Live .txb ∧ exact.Live .txb ∧
    short.cap .txb - (short.ring .txb).count < m.kind.length ∧
    m.kind.length ≤ exact.cap .txb - (exact.ring .txb).count := by decide +kernel
theorem witness_OnlyTheTypeByteIsMarked :
    encodePayload [] (Message.ctlPing 268435455#28).payload = some [0x7F#8, 0x7F#8, 0x7F#8, 0x7F#8] := by decide
theorem witness_PayloadBytesFollowTheFormat : Config.refParamCatalog.wf = true ∧
    ⟨5#7, "RefRunMode", "none", .enum [(0#14, "RunModeA"), (1#14, "RunModeB")]⟩ ∈ Config.refParamCatalog ∧
    encodeValue (.enum [(0#14, "RunModeA"), (1#14, "RunModeB")]) (.member "RunModeB") = some 1#14 := by decide
theorem witness_EncodeThenDecodeReturnsTheMessage :
    let m := Message.ctlSetParameter "RefSignedOffset" (.scaled (-27 / 10))
    let s := devAt 4 3 []
    s.cfg.wf = true ∧ m.wf s.cfg = true ∧ s.Live .txb ∧ (s.ring .txb).count = 0 ∧ m.kind.length ≤ s.cap .txb := by
  decide +kernel
/-- Ping(300) (S7), at the last free bytes of the buffer and at the end of it. -/
theorem witness_PingIsTheByteFF :
    let s := devAt 5 3 []
    let u := devAt 5 3 [0xFF#8, 0x2C#8, 0x02#8, 0x00#8, 0x00#8]
    (s.cfg.wf = true ∧ s.Live .txb ∧ 5 ≤ s.cap .txb - (s.ring .txb).count) ∧
    (u.cfg.wf = true ∧ u.Live .rxb ∧
      (u.ring .rxb).queue .rxb (u.cap .rxb) = 0xFF#8 :: 0x2C#8 :: 0x02#8 :: 0x00#8 :: 0x00#8 :: [] ∧
      (∀ x ∈ [0x2C#8, 0x02#8, 0x00#8, 0x00#8], Byte.marked x = false) ∧
      (300#28).toNat = (0x2C#8).toNat + 128 * (0x02#8).toNat + 16384 * (0x00#8).toNat + 2097152 * (0x00#8).toNat) ∧
    (⟨0x7F#7, .remPing, .fs, 5⟩ : TypeRow) ∈ s.cfg.table .rem := by decide
theorem witness_GarbageThenAFrameIsOnePoll :
    let m := Message.ctlGetParameter "CurrentLimit"
    let s := dev [0x00#8, 0x7F#8, 0x81#8, 0x01#8]
    s.cfg.wf = true ∧ m.wf s.cfg = true ∧ s.Live .rxb ∧ 1 ≤ s.cap .rxb ∧
    s.cfg.entryOf m.kind = some ⟨0x01#7, .ctlGetParameter, .fi, 2⟩ ∧
    encodePayload (catalogOf s.cfg m.kind) m.payload = some [0x01#8] ∧ (∀ x ∈ [0x00#8, 0x7F#8], Byte.marked x = false) ∧
    (s.ring .rxb).queue .rxb (s.cap .rxb) = [0x00#8, 0x7F#8] ++ typeByte 0x01#7 :: [0x01#8] := by decide
theorem witness_ScaledValuesRoundTrip :
    let e := EntryKind.scaled 16 true (-8192) 8191
    e.wf = true ∧ ((-8192 : Int) : Rat) / (16 : Nat) ≤ -512 ∧ (-512 : Rat) ≤ ((8191 : Int) : Rat) / (16 : Nat) ∧
    (-600 : Rat) < ((-8192 : Int) : Rat) / (16 : Nat) ∧ ((8191 : Int) : Rat) / (16 : Nat) < 512 ∧
    -8192 ≤ rawOfWire true 8192#14 ∧ rawOfWire true 8192#14 ≤ 8191 ∧
    decodeValue e 8192#14 = some (.scaled (-512)) := by decide +kernel
theorem witness_EnumMembersRoundTrip : (EntryKind.enum [(0#14, "RunModeA"), (16383#14, "RunModeB")]).wf = true ∧
    (16383#14, "RunModeB") ∈ [(0#14, "RunModeA"), (16383#14, "RunModeB")] := by decide
theorem witness_EncodingSaturates : (EntryKind.scaled 16383 false 0 16383).wf = true := by decide
theorem witness_SignExtensionTestsBitThirteen : (-8192 : Int) ≤ -8192 ∧ (-8192 : Int) ≤ 8191 ∧ (8191 : Int) ≤ 8191 := by
  decide
theorem witness_TypeByteCarriesMarkerAndCode : Byte.marked 0x80#8 = true ∧ Byte.marked 0xFF#8 = true := by decide
theorem witness_CatalogLookupInvertsIds : 128 ≤ (0x80#8).toNat ∧ Config.refStatCatalog.wf = true ∧
    ⟨1#7, "RefSignedStat", "none", .scaled 16 true (-8192) 8191⟩ ∈ Config.refStatCatalog := by decide
theorem witness_MarkedPayloadBytesUnderMask : Byte.marked 0x80#8 = true := rfl
theorem witness_DecodeInvertsEncode : Config.ref.wf = true := by decide
/-- A device mid-run keeps the invariant's hypotheses: full, across the wrap, a pop pending. -/
theorem witness_StepKeepsTheInvariant :
    { full4 with schedule := [.request (Request.idle 1#3 .rxb)] }.Inv ∧
    ∃ t, step { full4 with schedule := [.request (Request.idle 1#3 .rxb)] } = .next t ∧ t.result = .byte 1#8 := by
  refine ⟨⟨fun b => by cases b <;> decide, fun b => ?_⟩, _, rfl, rfl⟩
  have h : ({ Ring.reset with wcur := 3 } : Ring).Inv 4 :=
    ⟨rfl, by simp [Ring.reset], by simp [Ring.reset], fun _ => by decide, by simp [Ring.reset]⟩
  cases b
  · exact inv_pushAll (by decide) [1#8, 2#8, 3#8, 4#8] h
  · exact inv_pushAll (by decide) [1#8, 2#8, 3#8, 4#8] h
theorem witness_FreshDeviceMeetsTheInvariant : 1 ≤ (refSized 1).nRx ∧ 1 ≤ (refSized 1).nTx := by decide
theorem witness_ConfigurationIsConstant :
    (∃ t, exec (.push .rxb 9#8) (dev []) = .next t) ∧ ∃ t, step (pending [] (.reset .rxb)) = .next t :=
  ⟨⟨_, rfl⟩, _, rfl⟩
theorem witness_OtherBufferIsUntouched :
    (∃ t, exec (.push .rxb 9#8) full4 = .next t) ∧ Buf.txb ≠ bufOf (.push .rxb 9#8) := ⟨⟨_, rfl⟩, by decide⟩
theorem witness_OnlyOverrunSetsTheFaultMark : (∃ t, exec (.push .rxb 9#8) full4 = .next t ∧ (t.ring .rxb).fault = true) ∧
    full4.cap .rxb ≤ (full4.ring .rxb).count := ⟨⟨_, rfl, rfl⟩, by decide⟩
theorem witness_ReadersWriteOnlyTheCount : (∃ t, exec (.decode .rxb .ctl) full4 = .next t ∧ (t.ring .rxb).count = 0) ∧
    bufOf (.decode .rxb .ctl) = .rxb := ⟨⟨_, rfl, rfl⟩, rfl⟩
theorem witness_StorageOutsideTheStoresIsUnchanged :
    let s := devAt 4 3 [1#8]
    (∃ t, exec (.encode .txb (.ctlGetParameter "CurrentLimit")) s = .next t ∧ t.result = .written true) ∧
    storedIndices s (.encode .txb (.ctlGetParameter "CurrentLimit")) = [0, 1] ∧
    2 ∉ storedIndices s (.encode .txb (.ctlGetParameter "CurrentLimit")) :=
  ⟨⟨_, rfl, rfl⟩, by decide, by decide⟩
/-- After a pop the remaining three are occupied, the popped one is free. -/
theorem witness_OccupiedElementsReadAsBefore :
    ∃ t, exec (.pop .rxb) full4 = .next t ∧ 1 ≤ full4.cap .rxb ∧ storedIndices full4 (.pop .rxb) = [] ∧
      (t.ring .rxb).occupied 4 2 = true ∧ (t.ring .rxb).occupied 4 3 = false := ⟨_, rfl, by decide, rfl, by decide, by decide⟩
theorem witness_RolesOnlyHelpEachOther :
    (∃ t, exec (.encode .txb (.remPing 0#28)) (dev []) = .next t) ∧
    Agent.encoderCaller.mayInvoke (dev []).cfg.role (.encode .txb (.remPing 0#28)) = true ∧
    (∃ t, exec (.decode .rxb .ctl) (dev [1#8]) = .next t) ∧
    Agent.decoderCaller.mayInvoke (dev []).cfg.role (.decode .rxb .ctl) = true := ⟨⟨_, rfl⟩, rfl, ⟨_, rfl⟩, rfl⟩
theorem witness_ContractKeepingStepsComplete :
    let s := { devAt 4 3 [1#8, 2#8, 3#8] with schedule := [.request (Request.idle 0#3 .txb)] }
    let e := { devAt 4 3 [] with
      schedule := [.request { Request.idle 6#3 .txb with msg := .remGetParameterResult "CurrentLimit" (.scaled 3) }] }
    (s.cfg.wf = true ∧ s.Live .rxb ∧ s.Live .txb ∧ s.gated = true ∧ s.operandsOk = true) ∧
    (e.cfg.wf = true ∧ e.Live .rxb ∧ e.Live .txb ∧ e.gated = true ∧ e.operandsOk = true) := by decide +kernel

end Sys2Proof.Tests
end

section
/-! PROOF. `Ping` in both directions (R7, R61, R138, R144): its groups as numbers, the poll of a complete frame and the encode of
a frame that fits with the whole outcome given, and the frame of `Ping` made of these. -/

namespace Sys2Proof

/-! ## Groups and type bytes as numbers -/

theorem marked_eq_false_iff (x : Byte) : x.marked = false ↔ x.toNat < 128 := by
  have h : x.marked = x.msb := rfl
  rw [h, BitVec.msb_eq_decide]
  simp

/-- A group byte is its seven bits as a number (R54). -/
theorem groupByte_eq_ofNat {n : Nat} (v : BitVec n) (k : Nat) :
    groupByte v k = BitVec.ofNat 8 (v.toNat / 2 ^ (7 * k) % 128) := by
  apply BitVec.eq_of_toNat_eq
  have hand : (v.toNat / 2 ^ (7 * k) % 256) &&& 127 = v.toNat / 2 ^ (7 * k) % 256 % 128 :=
    Nat.and_two_pow_sub_one_eq_mod _ 7
  simp only [groupByte, BitVec.toNat_and, BitVec.toNat_setWidth, BitVec.toNat_ushiftRight, Nat.shiftRight_eq_div_pow,
    BitVec.toNat_ofNat, Nat.reducePow, Nat.reduceMod, hand]
  omega

/-- The four groups of a sequence number, low first (R57, R111). -/
theorem split28_eq_ofNat (n : BitVec 28) :
    split28 n = [BitVec.ofNat 8 (n.toNat % 128), BitVec.ofNat 8 (n.toNat / 128 % 128),
      BitVec.ofNat 8 (n.toNat / 16384 % 128), BitVec.ofNat 8 (n.toNat / 2097152 % 128)] := by
  simp [split28, groupByte_eq_ofNat]

/-- Four unmarked bytes are the groups of the number they stand for. -/
theorem split28_of_toNat_eq {n : BitVec 28} {p0 p1 p2 p3 : Byte} (hu : ∀ x ∈ [p0, p1, p2, p3], x.marked = false)
    (hn : n.toNat = p0.toNat + 128 * p1.toNat + 16384 * p2.toNat + 2097152 * p3.toNat) :
    split28 n = [p0, p1, p2, p3] := by
  simp only [List.mem_cons, List.not_mem_nil, or_false, forall_eq_or_imp, forall_eq, marked_eq_false_iff] at hu
  obtain ⟨h0, h1, h2, h3⟩ := hu
  have hbyte (k : Nat) (p : Byte) (hk : k = p.toNat) : BitVec.ofNat 8 k = p := by simp [hk]
  rw [split28_eq_ofNat, hbyte _ p0 (by omega), hbyte _ p1 (by omega), hbyte _ p2 (by omega), hbyte _ p3 (by omega)]

/-- The groups an encoder writes leave no field open (R50, U2). -/
theorem openGroups_split28 (policy : MarkedPolicy) (n : BitVec 28) : openGroups policy (split28 n) = false := by
  simp [openGroups, split28, groupByte_unmarked]

theorem typeByte_injective : Function.Injective typeByte := Function.LeftInverse.injective groupOf_typeByte

@[simp] theorem typeByte_pingCode : typeByte pingCode = 0xFF#8 := rfl

/-- In a usable entry the type byte 0xFF is `Ping`'s and no other's (R7, R61). -/
theorem row_ok_typeByte_iff {dir : Dir} {r : TypeRow} (h : r.ok dir = true) :
    typeByte r.code = 0xFF#8 ↔ r.kind.isPing = true :=
  ⟨fun hc => row_ok_code h (typeByte_injective hc), fun hp => by rw [row_ok_ping h hp, typeByte_pingCode]⟩

theorem isPing_iff_format (k : Kind) : k.isPing = true ↔ k.format = .fs := by cases k <;> decide

/-- The entry of a kind in a well-formed configuration is usable. -/
theorem entryOf_ok {cfg : Config} (h : cfg.wf = true) {k : Kind} {r : TypeRow} (hr : cfg.entryOf k = some r) :
    r.ok k.dir = true := table_rows_ok (table_wf h k.dir) (entryOf_some hr).1

end Sys2Proof

namespace Sys2Proof.Machine

variable {s : State} {b : Buf}

/-! ## A whole frame, polled and encoded -/

/-- A poll of garbage and a known, complete frame consumes both and returns the frame's outcome (R87, R92 to R94). -/
theorem execDecode_complete {dir : Dir} {g rest : List Byte} {h : Byte} {row : TypeRow} {o : PollOutcome} (hl : s.Live b)
    (hN : 1 ≤ s.cap b) (hq : (s.ring b).queue b (s.cap b) = g ++ h :: rest) (hg : ∀ x ∈ g, x.marked = false)
    (hh : h.marked = true) (hrow : s.cfg.lookupType dir (groupOf h) = some row) (hok : row.ok dir = true)
    (hlen : row.length ≤ rest.length + 1)
    (ho : drainedOutcome s.cfg b (s.ring b).draws row ((h :: rest).take row.length).tail = some o) :
    execDecode b dir s = .next (s.polled b (rest.length + 1 - row.length)
      (frameDraws s.cfg.markedPolicy row.format ((h :: rest).take row.length).tail) o) := by
  have hcount := scan_count_marked hN hq hg hh
  have hle : row.length ≤ ((s.ring b).scan b (s.cap b)).count := by omega
  obtain ⟨o', ho', -, -, -, hp⟩ := pollFrame_complete s b dir hok hle
  rw [drain_eq hN _ _ hle, scan_queue_marked hN hq hg hh] at ho' hp
  obtain rfl : o' = o := Option.some.inj (ho'.symm.trans ho)
  rw [execDecode_frame s b dir hl (scan_peek_marked hN hq hg hh) hrow hok, hp, hcount]

/-- An encode of an operand that fits appends its type byte and its payload (R99). -/
theorem execEncode_appends {m : Message} {row : TypeRow} {q : List Byte} (hw : s.cfg.wf = true) (hl : s.Live b)
    (hrow : s.cfg.entryOf m.kind = some row) (hq : encodePayload (catalogOf s.cfg m.kind) m.payload = some q)
    (hf : m.kind.length ≤ s.cap b - (s.ring b).count) :
    ∃ t, execEncode b m s = .next t ∧ t.result = .written true ∧
      (t.ring b).queue b (s.cap b) = (s.ring b).queue b (s.cap b) ++ typeByte row.code :: q := by
  have hlen := encodePayload_length _ m q hq
  have hpos := kind_length_pos m.kind
  refine ⟨_, execEncode_fits hl hrow (entryOf_ok hw hrow) hq hf, setResult_result _ _, ?_⟩
  rw [setResult_ring, setRing_ring, pushAll_queue _ _ (by rw [List.length_cons]; omega)]

/-! ## `Ping` -/

/-- What the two `Ping`s share: the kind is a `Ping` of its direction, the payload the sequence number (R138, R144). -/
theorem ping_kind_payload {m : Message} {n : BitVec 28} (hm : m = .ctlPing n ∨ m = .remPing n) :
    m.kind.isPing = true ∧ m.payload = .sequence n := by
  rcases hm with rfl | rfl <;> exact ⟨rfl, rfl⟩

/-- The entry of `Ping` in a well-formed configuration: code 0x7F, format FS, five bytes (R61). -/
theorem ping_entry {cfg : Config} (hw : cfg.wf = true) {k : Kind} (hk : k.isPing = true) :
    ∃ row, cfg.entryOf k = some row ∧ row.kind = k ∧ row.code = pingCode ∧ row.format = .fs ∧ row.length = 5 := by
  obtain ⟨row, hrow⟩ := entryOf_total hw k
  obtain ⟨-, hkind⟩ := entryOf_some hrow
  have hok := entryOf_ok hw hrow
  obtain ⟨-, hformat, hlength, -⟩ := (row_ok_iff _ _).1 hok
  have hfs : row.format = .fs := by rw [hformat, hkind, (isPing_iff_format k).1 hk]
  exact ⟨row, hrow, hkind, row_ok_ping hok (hkind ▸ hk), hfs, by rw [hlength, hfs]; rfl⟩

/-- `ENCODE` of a `Ping` that fits appends 0xFF and the four groups (R99, R138, R144). -/
theorem execEncode_ping {m : Message} {n : BitVec 28} (hm : m = .ctlPing n ∨ m = .remPing n) (hw : s.cfg.wf = true)
    (hl : s.Live b) (hf : 5 ≤ s.cap b - (s.ring b).count) :
    ∃ t, execEncode b m s = .next t ∧ t.result = .written true ∧
      (t.ring b).queue b (s.cap b) = (s.ring b).queue b (s.cap b) ++ 0xFF#8 :: split28 n := by
  obtain ⟨hping, hpayload⟩ := ping_kind_payload hm
  obtain ⟨row, hrow, -, hcode, -, -⟩ := ping_entry hw hping
  have hq : encodePayload (catalogOf s.cfg m.kind) m.payload = some (split28 n) := by rw [hpayload]; rfl
  have hlen : m.kind.length = 5 := by rw [Kind.length, (isPing_iff_format _).1 hping]; rfl
  simpa only [hcode, typeByte_pingCode] using execEncode_appends hw hl hrow hq (hlen ▸ hf)

/-- A poll of 0xFF and the groups of `n` returns `Ping n` and takes no free value, under either policy (R93, R110). -/
theorem execDecode_ping {m : Message} {n : BitVec 28} {rest : List Byte} (hm : m = .ctlPing n ∨ m = .remPing n)
    (hw : s.cfg.wf = true) (hl : s.Live b)
    (hq : (s.ring b).queue b (s.cap b) = 0xFF#8 :: (split28 n ++ rest)) :
    execDecode b m.kind.dir s = .next (s.polled b rest.length 0 (.message m)) := by
  obtain ⟨hping, hpayload⟩ := ping_kind_payload hm
  obtain ⟨row, hrow, hkind, hcode, hfs, hlen⟩ := ping_entry hw hping
  have hlook : s.cfg.lookupType m.kind.dir (groupOf 0xFF#8) = some row := by
    rw [← typeByte_pingCode, groupOf_typeByte, ← hcode]
    exact lookupType_code hw hrow
  have hframe : ((0xFF#8 :: (split28 n ++ rest)).take row.length).tail = split28 n := by rw [hlen]; rfl
  have hmake : row.kind.make (.sequence n) = some m := by rw [hkind, ← hpayload, make_payload]
  have hout : drainedOutcome s.cfg b (s.ring b).draws row (split28 n) = some (.message m) := by
    simp [drainedOutcome, hfs, split28, decodePayload, sequenceField_groups, hmake]
  have hdraws : frameDraws s.cfg.markedPolicy row.format (split28 n) = 0 := by
    simp [hfs, frameDraws, openGroups_split28]
  have hrest : (split28 n ++ rest).length + 1 = rest.length + 5 := by simp [split28]
  have hpoll := execDecode_complete (g := []) hl (capacity_pos hw b) hq (by simp) rfl hlook (entryOf_ok hw hrow) (by omega)
    (hframe.symm ▸ hout)
  rwa [hframe, hdraws, hrest, hlen, Nat.add_sub_cancel] at hpoll

/-- Settles O33: both directions share one argument, on the entry of a kind that is a `Ping`. -/
theorem pingIsTheByteFF : Obligations.PingIsTheByteFF := by
  intro s b n m hw hl hm
  refine ⟨fun hf => ?_, fun p0 p1 p2 p3 rest hq hu hn => ?_, fun dir row hrow => ?_⟩
  · rw [← split28_eq_ofNat]
    exact execEncode_ping hm hw hl hf
  · refine execDecode_ping hm hw hl ?_
    rw [split28_of_toNat_eq hu hn]
    exact hq
  · exact row_ok_typeByte_iff (table_rows_ok (table_wf hw dir) hrow)

end Sys2Proof.Machine
end

section
/-! PROOF. What every instruction that completes leaves, said once (`exec_next`), and what a step is (`step_cases`); from these
the statements about the configuration, the other buffer, the fault mark, the readers, the record of written bytes and the
occupied elements (R15 to R18, R22, R26, R46, R72 to R77, R99). -/

namespace Sys2Proof.Machine

variable {s t : State} {b c : Buf} {N : Nat} {B : Ring}

/-! ## The operations on a buffer without a fault mark -/

/-- `POP` by cases on the count (R74). -/
theorem pop_eq_written (b : Buf) (N : Nat) (B : Ring) :
    B.pop b N = if B.count = 0 then (none, B) else (some (B.written b (B.headIndex N)), B.popped) := by
  unfold Ring.pop
  rw [peek_eq_written]
  by_cases h : B.count = 0 <;> simp [h]

theorem execPush_live (hl : s.Live b) (x : Byte) :
    execPush b x s = .next ((s.setRing b ((s.ring b).push b (s.cap b) x)).setResult .nothing) := by
  rw [execPush, live_of_live s b hl, finish_next]

theorem execPop_empty (hl : s.Live b) (hc : (s.ring b).count = 0) : execPop b s = .next (s.setResult .empty) := by
  simp [execPop, live_of_live s b hl, pop_eq_written, hc]

theorem execPop_nonempty (hl : s.Live b) (hc : (s.ring b).count ≠ 0) :
    execPop b s = .next ((s.setRing b (s.ring b).popped).setResult
      (.byte ((s.ring b).written b ((s.ring b).headIndex (s.cap b))))) := by
  simp [execPop, live_of_live s b hl, pop_eq_written, hc]

theorem execPeek_empty (hl : s.Live b) (hc : (s.ring b).count = 0) : execPeek b s = .next (s.setResult .empty) := by
  simp [execPeek, live_of_live s b hl, peek_eq_written, hc]

theorem execPeek_nonempty (hl : s.Live b) (hc : (s.ring b).count ≠ 0) :
    execPeek b s = .next (s.setResult (.byte ((s.ring b).written b ((s.ring b).headIndex (s.cap b))))) := by
  simp [execPeek, live_of_live s b hl, peek_eq_written, hc]

theorem execCount_live (hl : s.Live b) : execCount b s = .next (s.setResult (.number (s.ring b).count)) := by
  simp [execCount, live_of_live s b hl, Ring.countValue]

theorem execFree_live (hl : s.Live b) :
    execFree b s = .next (s.setResult (.number (s.cap b - (s.ring b).count))) := by
  simp [execFree, live_of_live s b hl, Ring.freeValue]

theorem scan_of_count_zero (hc : B.count = 0) : B.scan b N = B := by simp [Ring.scan, hc, Ring.scanLoop]

theorem execDecode_empty (hl : s.Live b) (hc : (s.ring b).count = 0) (dir : Dir) :
    execDecode b dir s = .next (s.setResult (.poll .pending)) := by
  simp [execDecode, live_of_live s b hl, scan_of_count_zero hc, peek_eq_written, hc]

/-- A frame as an instruction is `acceptFrame` of a length and of an outcome that depends on the device's configuration alone
(R130 to R144). -/
theorem exec_of_frame {i : Instr} (hi : opSelect i = none) :
    ∃ (L : Nat) (o : Config → PollOutcome), ∀ s : State, exec i s = acceptFrame s (bufOf i) L (o s.cfg) := by
  cases i with
  | push | pop | peek | count | free | decode | encode => cases hi
  | ctlGetParameter b k => exact ⟨_, fun cfg => identOutcome cfg.paramCatalog k .ctlGetParameter, fun _ => rfl⟩
  | ctlGetStatistic b k => exact ⟨_, fun cfg => identOutcome cfg.statCatalog k .ctlGetStatistic, fun _ => rfl⟩
  | ctlSetParameter b k w => exact ⟨_, fun cfg => valueOutcome cfg.paramCatalog k w .ctlSetParameter, fun _ => rfl⟩
  | remGetParameterResult b k w =>
    exact ⟨_, fun cfg => valueOutcome cfg.paramCatalog k w .remGetParameterResult, fun _ => rfl⟩
  | remGetStatisticResult b k w =>
    exact ⟨_, fun cfg => valueOutcome cfg.statCatalog k w .remGetStatisticResult, fun _ => rfl⟩
  | _ => exact ⟨_, fun _ => .message _, fun _ => rfl⟩

/-! ## What an instruction leaves of its buffer -/

/-- A push is a burst of one byte (R72, R73). -/
theorem push_eq_pushAll (x : Byte) : B.push b N x = B.pushAll b N [x] := rfl

theorem push_of_full (hc : N ≤ B.count) (x : Byte) : B.push b N x = B.overrun b N x := by
  simp [Ring.push, Nat.not_lt.2 hc]

/-- The instruction is one of `PEEK`, `COUNT` and `FREE`, which R39 lets write nothing. -/
def Looks (i : Instr) : Prop := ∃ b, i = .peek b ∨ i = .count b ∨ i = .free b

/-- What an instruction that completes leaves of its own buffer: everything as it was; `count` lower and free values taken
(R74, R82, R92); bytes stored that fit (R72, R99); or what a push on a full buffer leaves (R73). -/
inductive Leaves (s : State) : Instr → Ring → Prop
  | kept {i : Instr} (hi : storedIndices s i = []) : Leaves s i (s.ring (bufOf i))
  | lowered {i : Instr} (hi : storedIndices s i = []) (hlook : ¬ Looks i) {m : Nat} (hm : m ≤ (s.ring (bufOf i)).count)
      (n : Nat) : Leaves s i { s.ring (bufOf i) with count := m, draws := (s.ring (bufOf i)).draws + n }
  | stored {i : Instr} {xs : List Byte} (hxs : xs ≠ [])
      (hi : storedIndices s i = (List.range xs.length).map fun k => ((s.ring (bufOf i)).wcur + k) % s.cap (bufOf i))
      (hfit : (s.ring (bufOf i)).count + xs.length ≤ s.cap (bufOf i)) :
      Leaves s i ((s.ring (bufOf i)).pushAll (bufOf i) (s.cap (bufOf i)) xs)
  | overrun {b : Buf} {x : Byte} (hfull : s.cap b ≤ (s.ring b).count) :
      Leaves s (.push b x) ((s.ring b).overrun b (s.cap b) x)

/-- The instruction `i` may take the device `s` to `t`: the buffer it works on as `Leaves` says, and a result. -/
def Completes (s : State) (i : Instr) (t : State) : Prop :=
  ∃ B r, Leaves s i B ∧ t = (s.setRing (bufOf i) B).setResult r

theorem completes_kept {i : Instr} (hi : storedIndices s i = []) (r : Result) : Completes s i (s.setResult r) :=
  ⟨_, r, .kept hi, by rw [setRing_self]⟩

theorem completes_polled {i : Instr} (hi : storedIndices s i = []) (hlook : ¬ Looks i) {m : Nat}
    (hm : m ≤ (s.ring (bufOf i)).count) (n : Nat) (o : PollOutcome) : Completes s i (s.polled (bufOf i) m n o) :=
  ⟨_, _, .lowered hi hlook hm n, rfl⟩

theorem storedIndices_of_frame {i : Instr} (hi : opSelect i = none) (s : State) : storedIndices s i = [] := by
  cases i with
  | push | pop | peek | count | free | decode | encode => cases hi
  | _ => rfl

theorem not_looks_of_frame {i : Instr} (hi : opSelect i = none) : ¬ Looks i := by
  rintro ⟨b, rfl | rfl | rfl⟩ <;> cases hi

theorem completes_of_frame {i : Instr} (hi : opSelect i = none) (h : exec i s = .next t) : Completes s i t := by
  obtain ⟨L, o, hexec⟩ := exec_of_frame hi
  rw [hexec] at h
  rcases acceptFrame_cases s (bufOf i) L (o s.cfg) with ⟨-, hstop⟩ | ⟨-, m, o', hm, hnext, -⟩
  · cases hstop.symm.trans h
  · cases hnext.symm.trans h
    exact completes_polled (storedIndices_of_frame hi s) (not_looks_of_frame hi) hm 0 o'

theorem completes_of_push {x : Byte} (hl : s.Live b) (h : execPush b x s = .next t) : Completes s (.push b x) t := by
  cases (execPush_live hl x).symm.trans h
  refine ⟨_, _, ?_, rfl⟩
  by_cases hc : (s.ring b).count < s.cap b
  · exact push_eq_pushAll (B := s.ring b) x ▸ .stored (xs := [x]) (by simp) (by simp [storedIndices, bufOf]) hc
  · exact push_of_full (Nat.not_lt.1 hc) x ▸ .overrun (Nat.not_lt.1 hc)

theorem completes_of_pop (hl : s.Live b) (h : execPop b s = .next t) : Completes s (.pop b) t := by
  by_cases hc : (s.ring b).count = 0
  · cases (execPop_empty hl hc).symm.trans h
    exact completes_kept rfl _
  · cases (execPop_nonempty hl hc).symm.trans h
    exact ⟨_, _, .lowered (i := .pop b) rfl (by simp [Looks]) (Nat.sub_le _ 1) 0, rfl⟩

theorem completes_of_peek (hl : s.Live b) (h : execPeek b s = .next t) : Completes s (.peek b) t := by
  by_cases hc : (s.ring b).count = 0
  · cases (execPeek_empty hl hc).symm.trans h
    exact completes_kept rfl _
  · cases (execPeek_nonempty hl hc).symm.trans h
    exact completes_kept rfl _

theorem completes_of_decode {dir : Dir} (h : execDecode b dir s = .next t) : Completes s (.decode b dir) t := by
  rcases execDecode_cases b dir s with ⟨-, hstop⟩ | ⟨-, hstop, -⟩ | ⟨-, m, n, o, hnext, hm, -⟩
  · cases hstop.symm.trans h
  · cases hstop.symm.trans h
  · cases hnext.symm.trans h
    exact completes_polled (i := .decode b dir) rfl (by simp [Looks]) hm n o

theorem completes_of_encode {m : Message} (h : execEncode b m s = .next t) : Completes s (.encode b m) t := by
  rcases execEncode_cases b m s with ⟨-, hstop⟩ | ⟨r, hstop⟩ | ⟨-, hfull, hnext⟩ | ⟨-, hfit, xs, hlen, hnext⟩
  · cases hstop.symm.trans h
  · cases hstop.symm.trans h
  · cases hnext.symm.trans h
    exact completes_kept (by simp [storedIndices, Ring.freeValue, hfull]) _
  · cases hnext.symm.trans h
    have hpos := kind_length_pos m.kind
    refine ⟨_, _, .stored (i := .encode b m) ?_ ?_ ?_, rfl⟩
    · rintro rfl; simp at hlen; omega
    · simp [storedIndices, Ring.freeValue, Nat.not_lt.2 hfit, hlen, bufOf]
    · simp only [bufOf]; omega

/-- An instruction that completes ran on a buffer without a fault mark (R22). -/
theorem live_of_exec_next {i : Instr} (h : exec i s = .next t) : s.Live (bufOf i) := by
  by_contra hf
  rw [exec_faulted i s (by simpa using hf)] at h
  cases h

/-- All an instruction that completes can leave. -/
theorem exec_next {i : Instr} (h : exec i s = .next t) : Completes s i t := by
  have hl := live_of_exec_next h
  cases i with
  | push b x => exact completes_of_push hl h
  | pop b => exact completes_of_pop hl h
  | peek b => exact completes_of_peek hl h
  | count b =>
    cases (execCount_live hl).symm.trans h
    exact completes_kept rfl _
  | free b =>
    cases (execFree_live hl).symm.trans h
    exact completes_kept rfl _
  | decode b dir => exact completes_of_decode h
  | encode b m => exact completes_of_encode h
  | _ => exact completes_of_frame rfl h

/-! ## What a step is -/

/-- What a step does depends on the pending events alone: nothing, one reset, one event dropped, or one instruction (R163,
R167, R182). -/
theorem step_cases (events : List Event) :
    (∀ s : State, s.schedule = events → step s = .next s) ∨
    (∃ b, ∀ s : State, s.schedule = events → step s = .next (s.taken.restart b)) ∨
    (∀ s : State, s.schedule = events → step s = .next s.taken) ∨
    ∃ r rest i, events = .request r :: rest ∧ decodeRequest r = .ok i ∧
      ∀ s : State, s.schedule = events → step s = exec i s.taken := by
  rcases events with _ | ⟨r | b, rest⟩
  · exact .inl fun s hs => by simp only [step, hs]
  · cases hd : decodeRequest r with
    | error e => exact .inr (.inr (.inl fun s hs => by simp only [step, hs, hd]))
    | ok i => exact .inr (.inr (.inr ⟨r, rest, i, rfl, hd, fun s hs => by simp only [step, hs, hd]⟩))
  · exact .inr (.inl ⟨b, fun s hs => by simp only [step, hs]⟩)

/-- All a step that completes can be. -/
theorem step_next (h : step s = .next t) :
    t = s ∨ (∃ b, t = s.taken.restart b) ∨ t = s.taken ∨ ∃ i, exec i s.taken = .next t := by
  rcases step_cases s.schedule with hstep | ⟨b, hstep⟩ | hstep | ⟨_, _, i, -, -, hstep⟩ <;> rw [hstep s rfl] at h
  · cases h; exact .inl rfl
  · cases h; exact .inr (.inl ⟨b, rfl⟩)
  · cases h; exact .inr (.inr (.inl rfl))
  · exact .inr (.inr (.inr ⟨i, h⟩))

@[simp] theorem restart_cfg (s : State) (b : Buf) : (s.restart b).cfg = s.cfg := setRing_cfg s b _
@[simp] theorem restart_ring (s : State) (b : Buf) : (s.restart b).ring b = (s.ring b).restarted := setRing_ring s b _
theorem restart_ring_ne (s : State) (h : c ≠ b) : (s.restart b).ring c = s.ring c := setRing_ring_ne s b c _ h

end Sys2Proof.Machine
end

section
/-! PROOF. The statements of the state and of the whole machine that follow from what an instruction leaves: the invariant, the
constant configuration, the other buffer, the fault mark, the readers, the written bytes and the occupied elements; the freshly
constructed device; and that a step which keeps the contract completes. -/

namespace Sys2Proof.Machine

variable {s t : State} {b c : Buf} {N : Nat} {B : Ring} {i : Instr}

/-! ## What an instruction that completes leaves of the device -/

theorem completes_cfg (h : Completes s i t) : t.cfg = s.cfg := by
  obtain ⟨B, r, -, rfl⟩ := h
  simp

theorem completes_schedule (h : Completes s i t) : t.schedule = s.schedule := by
  obtain ⟨B, r, -, rfl⟩ := h
  simp

theorem completes_ring (h : Completes s i t) : Leaves s i (t.ring (bufOf i)) := by
  obtain ⟨B, r, hB, rfl⟩ := h
  simpa using hB

theorem completes_ring_ne (h : Completes s i t) (hc : c ≠ bufOf i) : t.ring c = s.ring c := by
  obtain ⟨B, r, -, rfl⟩ := h
  simp [setRing_ring_ne _ _ _ _ hc]

/-- Settles O51: an instruction replaces the buffer it works on and no other. -/
theorem otherBufferIsUntouched : Obligations.OtherBufferIsUntouched :=
  fun _ _ _ _ h hc => completes_ring_ne (exec_next h) hc

/-- Settles O50: what completes replaces one buffer and the result; a step besides takes an event or resets a buffer. -/
theorem configurationIsConstant : Obligations.ConfigurationIsConstant := by
  refine ⟨fun i s t h => ⟨completes_cfg (exec_next h), completes_schedule (exec_next h)⟩, fun s t h => ?_⟩
  rcases step_next h with rfl | ⟨b, rfl⟩ | rfl | ⟨i, h⟩
  · rfl
  · simp
  · simp
  · simpa using completes_cfg (exec_next h)

/-! ## The invariant -/

theorem inv_taken (h : s.Inv) : s.taken.Inv := ⟨by simpa using h.sized, by simpa using h.rings⟩

/-- The invariant of the device is that of each buffer: replacing one keeps it. -/
theorem inv_setRing (h : s.Inv) (hB : B.Inv (s.cap b)) : (s.setRing b B).Inv where
  sized := by simpa using h.sized
  rings := fun c => by
    by_cases hc : c = b
    · subst hc; simpa using hB
    · simpa [setRing_ring_ne s b c B hc] using h.rings c

theorem inv_setResult (h : s.Inv) (r : Result) : (s.setResult r).Inv := ⟨by simpa using h.sized, by simpa using h.rings⟩

/-- Every instruction keeps the invariant of its buffer, a push on a full one too. -/
theorem inv_leaves (h : s.Inv) (hB : Leaves s i B) : B.Inv (s.cap (bufOf i)) := by
  cases hB with
  | kept => exact h.rings _
  | @lowered _ _ _ m hm n =>
    have hlow := inv_drawn (inv_lowered (h.sized _) (h.rings (bufOf i)) ((s.ring (bufOf i)).count - m)) n
    rwa [Nat.sub_sub_self hm] at hlow
  | stored => exact inv_pushAll (h.sized _) _ (h.rings _)
  | overrun => exact inv_overrun (h.sized _) _ _

theorem inv_completes (h : s.Inv) (hc : Completes s i t) : t.Inv := by
  obtain ⟨B, r, hB, rfl⟩ := hc
  exact inv_setResult (inv_setRing h (inv_leaves h hB)) r

/-- Settles O48: by what a step can be; a reset starts the invariant anew. -/
theorem stepKeepsTheInvariant : Obligations.StepKeepsTheInvariant := by
  intro s t h hstep
  rcases step_next hstep with rfl | ⟨b, rfl⟩ | rfl | ⟨i, hexec⟩
  · exact h
  · exact inv_setRing (inv_taken h) (inv_restarted (h.sized b) _)
  · exact inv_taken h
  · exact inv_completes (inv_taken h) (exec_next hexec)

theorem resetWith_ring (cfg : Config) (b : Buf) : (State.resetWith cfg).ring b = Ring.reset := by cases b <;> rfl

theorem inv_resetWith (cfg : Config) (hrx : 1 ≤ cfg.nRx) (htx : 1 ≤ cfg.nTx) : (State.resetWith cfg).Inv := by
  have hcap (b : Buf) : 1 ≤ (State.resetWith cfg).cap b := by cases b <;> assumption
  exact ⟨hcap, fun b => by rw [resetWith_ring]; exact inv_reset (hcap b)⟩

/-- Settles O49: an empty buffer meets the invariant; REF's capacities are 16 and 8. -/
theorem freshDeviceMeetsTheInvariant : Obligations.FreshDeviceMeetsTheInvariant :=
  ⟨inv_resetWith, inv_resetWith Config.ref (by decide) (by decide)⟩

/-- Settles O1: both buffers are live with count 0, and each operation has its law for an empty buffer. -/
theorem freshDeviceIsEmpty : Obligations.FreshDeviceIsEmpty := by
  intro cfg b dir s
  have hring : s.ring b = Ring.reset := resetWith_ring cfg b
  have hl : s.Live b := by rw [State.Live, hring]; rfl
  have hc : (s.ring b).count = 0 := by rw [hring]; rfl
  refine ⟨hc, by rw [hring]; rfl, hl, ?_, ?_, execPeek_empty hl hc, execPop_empty hl hc, execDecode_empty hl hc dir⟩
  · exact hc ▸ execCount_live hl
  · exact (execFree_live hl).trans (by rw [hc]; rfl)

/-! ## The fault mark -/

/-- Settles O5: every operation and every frame runs through `live`, which stops on a set mark. -/
theorem faultedBufferStopsEveryInstruction : Obligations.FaultedBufferStopsEveryInstruction := exec_faulted

/-- The mark after an instruction: as before, or set by a push on a full buffer (R22, R73). -/
theorem leaves_fault (hB : Leaves s i B) : B.fault = true ↔ (s.ring (bufOf i)).fault = true ∨
    ∃ x, i = .push (bufOf i) x ∧ s.cap (bufOf i) ≤ (s.ring (bufOf i)).count := by
  have hpush (h : storedIndices s i = []) (x : Byte) : i ≠ .push (bufOf i) x := by
    intro hi
    rw [hi] at h
    cases h
  cases hB with
  | kept hi => simp [hpush hi]
  | lowered hi => simp [hpush hi]
  | @stored _ xs hxs hi hfit =>
    have hpos := List.length_pos_iff.2 hxs
    rw [pushAll_fault _ _ hfit, or_iff_left]
    rintro ⟨x, -, hfull⟩
    omega
  | @overrun b x hfull => exact ⟨fun _ => .inr ⟨x, rfl, hfull⟩, fun _ => rfl⟩

/-- Settles O52: on its own buffer by `leaves_fault`; the other buffer is untouched and no push on it was asked for. -/
theorem onlyOverrunSetsTheFaultMark : Obligations.OnlyOverrunSetsTheFaultMark := by
  intro i s t c h
  by_cases hc : c = bufOf i
  · subst hc
    exact leaves_fault (completes_ring (exec_next h))
  · rw [completes_ring_ne (exec_next h) hc, or_iff_left]
    rintro ⟨x, rfl, -⟩
    exact hc rfl

/-! ## What readers and writers leave -/

theorem storedIndices_of_reader (hpush : ∀ x, i ≠ .push (bufOf i) x) (hencode : ∀ m, i ≠ .encode (bufOf i) m)
    (s : State) : storedIndices s i = [] := by
  cases i with
  | push b x => exact (hpush x rfl).elim
  | encode b m => exact (hencode m rfl).elim
  | _ => rfl

/-- An instruction that stores nothing lowers `count` at most, and not even that if it only looks (R39, R74). -/
theorem leaves_of_reader (hi : storedIndices s i = []) (hB : Leaves s i B) :
    (∃ m n, m ≤ (s.ring (bufOf i)).count ∧
      B = { s.ring (bufOf i) with count := m, draws := (s.ring (bufOf i)).draws + n }) ∧
    (Looks i → B = s.ring (bufOf i)) := by
  cases hB with
  | kept => exact ⟨⟨_, 0, le_rfl, rfl⟩, fun _ => rfl⟩
  | lowered _ hlook hm n => exact ⟨⟨_, n, hm, rfl⟩, fun h => (hlook h).elim⟩
  | stored hxs hstored => exact absurd (by simpa using hstored.symm.trans hi) hxs
  | overrun => cases hi

/-- Settles O53: the nineteen readers store nothing, and of what `Leaves` allows only `kept` and `lowered` store nothing. -/
theorem readersWriteOnlyTheCount : Obligations.ReadersWriteOnlyTheCount := by
  rintro i s t _ h rfl hpush hencode
  obtain ⟨hcount, hlook⟩ := leaves_of_reader (storedIndices_of_reader hpush hencode s) (completes_ring (exec_next h))
  exact ⟨hcount, fun hl => hlook ⟨_, hl⟩⟩

/-- The record of written bytes and the free values of unwritten elements stand outside the indices stored to
(R16, R36, R99), a push being one below capacity. -/
theorem leaves_read_and_epoch {a : Nat} (hB : Leaves s i B)
    (hroom : ∀ x, i = .push (bufOf i) x → (s.ring (bufOf i)).count < s.cap (bufOf i)) (ha : a ∉ storedIndices s i) :
    B.storage.read a = (s.ring (bufOf i)).storage.read a ∧ B.epoch = (s.ring (bufOf i)).epoch := by
  cases hB with
  | kept => exact ⟨rfl, rfl⟩
  | lowered => exact ⟨rfl, rfl⟩
  | @stored _ xs _ hi hfit =>
    refine ⟨pushAll_read_other xs _ hfit a fun k hk hak => ha ?_, pushAll_epoch xs _ hfit⟩
    rw [hi]
    exact List.mem_map.2 ⟨k, List.mem_range.2 hk, hak.symm⟩
  | @overrun b x hfull => exact absurd (hroom x rfl) (Nat.not_lt.2 hfull)

/-- Settles O54: on its own buffer by `leaves_read_and_epoch`; the other buffer is untouched. -/
theorem storageOutsideTheStoresIsUnchanged : Obligations.StorageOutsideTheStoresIsUnchanged := by
  intro i s t c a h hroom ha
  by_cases hc : c = bufOf i
  · subst hc
    exact (leaves_read_and_epoch (completes_ring (exec_next h)) hroom fun hmem => ha ⟨rfl, hmem⟩).1
  · rw [completes_ring_ne (exec_next h) hc]

/-- A burst that fits occupies the elements it is written to and no other (R72, R99). -/
theorem occupied_pushAll {a : Nat} (hN : 1 ≤ N) (xs : List Byte) (B : Ring) (hfit : B.count + xs.length ≤ N)
    (ha : ∀ k < xs.length, a ≠ (B.wcur + k) % N) (ho : (B.pushAll b N xs).occupied N a = true) :
    B.occupied N a = true := by
  induction xs generalizing B with
  | nil => exact ho
  | cons x xs ih =>
    simp only [List.length_cons] at hfit ha
    have hc : B.count < N := by omega
    simp only [Ring.pushAll, Ring.push, hc, if_true] at ho
    have htail : (B.pushed N x).occupied N a = true := by
      refine ih _ (by simp; omega) (fun k hk => ?_) ho
      rw [pushed_wcur, Nat.mod_add_mod, Nat.add_assoc, Nat.add_comm 1 k]
      exact ha (k + 1) (by omega)
    obtain ⟨k, hk, rfl⟩ := (occupied_iff _ _ _).1 htail
    rw [slot_pushed hN] at ha ⊢
    have hcursor : k ≠ B.count := by
      rintro rfl
      exact ha 0 (by omega) (slot_count hN B)
    exact (occupied_iff _ _ _).2 ⟨k, by rw [pushed_count] at hk; omega, rfl⟩

/-- An element occupied after an instruction that does not store to it was occupied before (R16, R74). -/
theorem leaves_occupied {a : Nat} (hN : 1 ≤ s.cap (bufOf i)) (hB : Leaves s i B)
    (hroom : ∀ x, i = .push (bufOf i) x → (s.ring (bufOf i)).count < s.cap (bufOf i)) (ha : a ∉ storedIndices s i)
    (ho : B.occupied (s.cap (bufOf i)) a = true) : (s.ring (bufOf i)).occupied (s.cap (bufOf i)) a = true := by
  cases hB with
  | kept => exact ho
  | @lowered _ _ _ m hm n =>
    refine occupied_lowered hN (n := (s.ring (bufOf i)).count - m) (Nat.sub_le _ _) ?_
    rwa [Nat.sub_sub_self hm]
  | @stored _ xs _ hi hfit =>
    refine occupied_pushAll hN xs _ hfit (fun k hk hak => ha ?_) ho
    rw [hi]
    exact List.mem_map.2 ⟨k, List.mem_range.2 hk, hak.symm⟩
  | @overrun b x hfull => exact absurd (hroom x rfl) (Nat.not_lt.2 hfull)

theorem written_congr {C : Ring} {a : Nat} (hread : B.storage.read a = C.storage.read a) (hepoch : B.epoch = C.epoch) :
    B.written b a = C.written b a := by
  rw [Ring.written, Ring.written, hread, hepoch]

/-- Settles O55: the element was occupied before, and its read is the byte written there, which stands. -/
theorem occupiedElementsReadAsBefore : Obligations.OccupiedElementsReadAsBefore := by
  intro i s t c a hN h hroom ha ho
  by_cases hc : c = bufOf i
  · subst hc
    have hmem : a ∉ storedIndices s i := fun hmem => ha ⟨rfl, hmem⟩
    have hB := completes_ring (exec_next h)
    have hbefore := leaves_occupied hN hB hroom hmem ho
    obtain ⟨hread, hepoch⟩ := leaves_read_and_epoch hB hroom hmem
    exact ⟨hbefore, by rw [element_occupied ho, element_occupied hbefore, written_congr hread hepoch]⟩
  · rw [completes_ring_ne (exec_next h) hc] at ho ⊢
    exact ⟨ho, rfl⟩

/-! ## Completion -/

/-- A value of the catalog has payload bytes (R102, R132). -/
theorem encodePayload_value {C : Catalog} {e : String} {v : PhysValue} (h : C.hasValue e v = true) :
    ∃ q, encodePayload C (.value e v) = some q := by
  unfold Catalog.hasValue at h
  cases hfind : C.find? (fun x => x.name == e) with
  | none => simp [hfind] at h
  | some x =>
    have henc : ∃ w, encodeValue x.kind v = some w := by
      cases hk : x.kind <;> cases v <;> simp only [hfind, hk] at h
      case scaled.scaled => exact ⟨_, rfl⟩
      case enum.member members m =>
        obtain ⟨p, hp⟩ := Option.isSome_iff_exists.1 (List.isSome_find?.trans h)
        exact ⟨p.1, by simp [encodeValue, hp]⟩
      all_goals cases h
    obtain ⟨w, hw⟩ := henc
    exact ⟨idByte x :: split14 w, by simp [encodePayload, entryNamed, hfind, hw]⟩

theorem encodePayload_ident {C : Catalog} {e : String} (h : C.hasIdent e = true) :
    ∃ q, encodePayload C (.ident e) = some q := by
  obtain ⟨x, hx⟩ := Option.isSome_iff_exists.1 (List.isSome_find?.trans h)
  exact ⟨[idByte x], by simp [encodePayload, entryNamed, hx]⟩

/-- An operand of `ENCODE` has payload bytes (R98, R102). -/
theorem encodePayload_total {cfg : Config} {m : Message} (h : m.wf cfg = true) :
    ∃ q, encodePayload (catalogOf cfg m.kind) m.payload = some q := by
  cases m with
  | ctlGetParameter | ctlGetStatistic => exact encodePayload_ident h
  | ctlSetParameter | remGetParameterResult | remGetStatisticResult => exact encodePayload_value h
  | _ => exact ⟨_, rfl⟩

theorem execDecode_completes (hw : s.cfg.wf = true) (hl : s.Live b) (dir : Dir) : ∃ t, execDecode b dir s = .next t := by
  rcases execDecode_cases b dir s with ⟨hf, -⟩ | ⟨-, -, row, hrow, hbad⟩ | ⟨-, n, k, o, hnext, -⟩
  · exact absurd (hf.symm.trans hl) (by decide)
  · exact absurd ((table_rows_ok (table_wf hw dir) hrow).symm.trans hbad) (by decide)
  · exact ⟨_, hnext⟩

theorem execEncode_completes (hw : s.cfg.wf = true) (hl : s.Live b) {m : Message} (hm : m.wf s.cfg = true) :
    ∃ t, execEncode b m s = .next t := by
  obtain ⟨row, hrow⟩ := entryOf_total hw m.kind
  obtain ⟨q, hq⟩ := encodePayload_total hm
  by_cases hfit : m.kind.length ≤ s.cap b - (s.ring b).count
  · exact ⟨_, execEncode_fits hl hrow (entryOf_ok hw hrow) hq hfit⟩
  · exact ⟨_, execEncode_full hl hrow (entryOf_ok hw hrow) hq (Nat.not_le.1 hfit)⟩

theorem exec_frame_completes (hl : s.Live (bufOf i)) (hi : opSelect i = none) : ∃ t, exec i s = .next t := by
  obtain ⟨L, o, hexec⟩ := exec_of_frame hi
  rw [hexec]
  rcases acceptFrame_cases s (bufOf i) L (o s.cfg) with ⟨hf, -⟩ | ⟨-, n, o', -, hnext, -⟩
  · exact absurd (hf.symm.trans hl) (by decide)
  · exact ⟨_, hnext⟩

/-- Every instruction completes on a buffer without a mark, in a well-formed configuration, with an operand (R150, R181). -/
theorem exec_completes (hw : s.cfg.wf = true) (hl : s.Live (bufOf i))
    (hoperand : ∀ b m, i = .encode b m → m.wf s.cfg = true) : ∃ t, exec i s = .next t := by
  cases i with
  | push b x => exact ⟨_, execPush_live hl x⟩
  | pop b =>
    by_cases hc : (s.ring b).count = 0
    · exact ⟨_, execPop_empty hl hc⟩
    · exact ⟨_, execPop_nonempty hl hc⟩
  | peek b =>
    by_cases hc : (s.ring b).count = 0
    · exact ⟨_, execPeek_empty hl hc⟩
    · exact ⟨_, execPeek_nonempty hl hc⟩
  | count b => exact ⟨_, execCount_live hl⟩
  | free b => exact ⟨_, execFree_live hl⟩
  | decode b dir => exact execDecode_completes hw hl dir
  | encode b m => exact execEncode_completes hw hl (hoperand b m rfl)
  | _ => exact exec_frame_completes hl rfl

/-- An instruction that is no push on a full buffer sets no mark (R22). -/
theorem live_of_exec (h : exec i s = .next t) (hl : s.Live c)
    (hroom : ∀ x, i = .push c x → (s.ring c).count < s.cap c) : t.Live c := by
  rw [State.Live, Bool.eq_false_iff, Ne, onlyOverrunSetsTheFaultMark i s t c h]
  rintro (hf | ⟨x, hi, hfull⟩)
  · exact absurd (hf.symm.trans hl) (by decide)
  · exact absurd (hroom x hi) (Nat.not_lt.2 hfull)

theorem live_restart (hl : s.Live c) : (s.restart b).Live c := by
  by_cases hc : c = b
  · subst hc; simp [State.Live]
  · rwa [State.Live, restart_ring_ne s hc]

theorem gated_push {r : Request} {rest : List Event} {x : Byte} (hs : s.schedule = .request r :: rest)
    (hd : decodeRequest r = .ok (.push b x)) (h : s.gated = true) : (s.ring b).count < s.cap b := by
  simpa [State.gated, hs, hd] using h

theorem operandsOk_encode {r : Request} {rest : List Event} {m : Message} (hs : s.schedule = .request r :: rest)
    (hd : decodeRequest r = .ok (.encode b m)) (h : s.operandsOk = true) : m.wf s.cfg = true := by
  simpa [State.operandsOk, hs, hd] using h

/-- Settles O57: by what a step is; an instruction completes by `exec_completes` and sets no mark by `live_of_exec`. -/
theorem contractKeepingStepsComplete : Obligations.ContractKeepingStepsComplete := by
  intro s hw hl hgated hoperands
  have htaken (b : Buf) : s.taken.Live b := by simpa [State.Live] using hl b
  rcases step_cases s.schedule with hstep | ⟨b, hstep⟩ | hstep | ⟨r, rest, i, hs, hd, hstep⟩ <;> rw [hstep s rfl]
  · exact ⟨_, rfl, hl⟩
  · exact ⟨_, rfl, fun c => live_restart (htaken c)⟩
  · exact ⟨_, rfl, htaken⟩
  · obtain ⟨t, ht⟩ := exec_completes (i := i) (s := s.taken) hw (htaken _)
      fun b m hi => by simpa using operandsOk_encode hs (hi ▸ hd) hoperands
    refine ⟨t, ht, fun c => live_of_exec ht (htaken c) fun x hi => ?_⟩
    simpa using gated_push hs (hi ▸ hd) hgated

end Sys2Proof.Machine
end

section
/-! PROOF. Devices that differ in cursors, in where the queued bytes stand and in free elements answer every step alike (R30): what
each operation makes of two such buffers, then of two such devices. -/

namespace Sys2Proof.Machine

variable {s t : State} {b : Buf} {N : Nat} {B C : Ring}

/-! ## Two buffers no operation distinguishes -/

theorem same_count (h : Ring.Same b N B C) (hf : B.fault = false) : B.count = C.count := by
  obtain ⟨-, -, hqueue⟩ := h
  simpa using congrArg List.length (hqueue hf)

theorem same_peek (hN : 1 ≤ N) (h : Ring.Same b N B C) (hf : B.fault = false) : B.peek b N = C.peek b N := by
  obtain ⟨-, -, hqueue⟩ := h
  rw [peek_eq_head hN, peek_eq_head hN, hqueue hf]

theorem same_popped (hN : 1 ≤ N) (h : Ring.Same b N B C) : Ring.Same b N B.popped C.popped := by
  obtain ⟨hfault, hdraws, hqueue⟩ := h
  exact ⟨hfault, hdraws, fun hf => by rw [queue_popped hN, queue_popped hN, hqueue hf]⟩

theorem same_drawn (h : Ring.Same b N B C) (n : Nat) : Ring.Same b N (B.drawn n) (C.drawn n) := by
  obtain ⟨hfault, hdraws, hqueue⟩ := h
  exact ⟨hfault, congrArg (· + n) hdraws, hqueue⟩

theorem same_restarted (h : Ring.Same b N B C) : Ring.Same b N B.restarted C.restarted := by
  obtain ⟨-, hdraws, -⟩ := h
  exact ⟨rfl, hdraws, fun _ => rfl⟩

theorem same_scan (hN : 1 ≤ N) (h : Ring.Same b N B C) : Ring.Same b N (B.scan b N) (C.scan b N) := by
  obtain ⟨hfault, hdraws, hqueue⟩ := h
  refine ⟨by simpa using hfault, by simpa using hdraws, fun hf => ?_⟩
  rw [scan_queue hN, scan_queue hN, hqueue (by simpa using hf)]

/-- `POP` gives the same byte and leaves two buffers that are still the same (R74, R78). -/
theorem same_pop (hN : 1 ≤ N) (h : Ring.Same b N B C) (hf : B.fault = false) :
    ∃ x B' C', B.pop b N = (x, B') ∧ C.pop b N = (x, C') ∧ Ring.Same b N B' C' := by
  have hcount := same_count h hf
  have ⟨_, _, hqueue⟩ := h
  have hpop := pop_eq (b := b) hN C
  rw [← hqueue hf] at hpop
  refine ⟨_, _, _, pop_eq hN B, hpop, ?_⟩
  rw [← hcount]
  split
  · exact h
  · exact same_popped hN h

/-- So do successive `POP`s of bytes that are there (R92). -/
theorem same_drain (hN : 1 ≤ N) (h : Ring.Same b N B C) (hf : B.fault = false) {n : Nat} (hn : n ≤ B.count) :
    ∃ bytes B' C', B.drain b N n = (bytes, B') ∧ C.drain b N n = (bytes, C') ∧ Ring.Same b N B' C' := by
  have hn' : n ≤ C.count := same_count h hf ▸ hn
  obtain ⟨hfault, hdraws, hqueue⟩ := h
  have hdrain := drain_eq (b := b) hN n C hn'
  rw [← hqueue hf] at hdrain
  refine ⟨_, _, _, drain_eq hN n B hn, hdrain, hfault, hdraws, fun _ => ?_⟩
  rw [queue_drained hN n B hn, queue_drained hN n C hn', hqueue hf]

/-- A push appends to both queues; on a full buffer it sets both marks, and nothing else is then observed (R72, R73). -/
theorem same_push (h : Ring.Same b N B C) (hf : B.fault = false) (x : Byte) :
    Ring.Same b N (B.push b N x) (C.push b N x) := by
  have hcount := same_count h hf
  obtain ⟨hfault, hdraws, hqueue⟩ := h
  by_cases hc : B.count < N
  · have hc' : C.count < N := hcount ▸ hc
    simp only [Ring.push, hc, hc', if_true]
    exact ⟨hfault, hdraws, fun _ => by rw [queue_pushed hc, queue_pushed hc', hqueue hf]⟩
  · rw [push_of_full (Nat.not_lt.1 hc), push_of_full (hcount ▸ Nat.not_lt.1 hc)]
    exact ⟨rfl, hdraws, fun hf' => nomatch hf'⟩

/-- A burst that fits appends to both queues (R99). -/
theorem same_pushAll (h : Ring.Same b N B C) (hf : B.fault = false) {xs : List Byte} (hfit : B.count + xs.length ≤ N) :
    Ring.Same b N (B.pushAll b N xs) (C.pushAll b N xs) := by
  have hfit' : C.count + xs.length ≤ N := same_count h hf ▸ hfit
  obtain ⟨hfault, hdraws, hqueue⟩ := h
  refine ⟨?_, ?_, fun _ => ?_⟩
  · rw [pushAll_fault _ _ hfit, pushAll_fault _ _ hfit', hfault]
  · rw [pushAll_draws _ _ hfit, pushAll_draws _ _ hfit', hdraws]
  · rw [pushAll_queue _ _ hfit, pushAll_queue _ _ hfit', hqueue hf]

/-! ## Two devices no step distinguishes -/

theorem same_cap (h : s.Same t) (b : Buf) : t.cap b = s.cap b := by
  obtain ⟨hcfg, -⟩ := h
  rw [State.cap, State.cap, hcfg]

theorem same_ring (h : s.Same t) (b : Buf) : Ring.Same b (s.cap b) (s.ring b) (t.ring b) := by
  obtain ⟨-, -, -, hrings⟩ := h
  exact hrings b

theorem same_setRing (h : s.Same t) (hB : Ring.Same b (s.cap b) B C) : (s.setRing b B).Same (t.setRing b C) := by
  obtain ⟨hcfg, hresult, hschedule, hrings⟩ := h
  refine ⟨by simpa using hcfg, by simpa using hresult, by simpa using hschedule, fun c => ?_⟩
  by_cases hc : c = b
  · subst hc; simpa using hB
  · simpa [setRing_ring_ne _ b c _ hc] using hrings c

theorem same_taken (h : s.Same t) : s.taken.Same t.taken := by
  obtain ⟨hcfg, hresult, hschedule, hrings⟩ := h
  exact ⟨hcfg, hresult, congrArg List.tail hschedule, by simpa using hrings⟩

theorem same_restart (h : s.Same t) (b : Buf) : (s.restart b).Same (t.restart b) :=
  same_setRing h (same_restarted (same_ring h b))

/-- Operations that leave the same of their buffer and return the same end the same. -/
theorem same_finish (h : s.Same t) (hB : Ring.Same b (s.cap b) B C) (r : Result) :
    sameAnswer (finish s b B r) (finish t b C r) := by
  obtain ⟨hcfg, -, hschedule, hrings⟩ := same_setRing h hB
  exact ⟨hcfg, rfl, hschedule, by simpa using hrings⟩

/-- Both devices run the operation on buffers that are the same, or both stop (R22). -/
theorem same_live {f g : Ring → Answer} (h : s.Same t)
    (hfg : s.Live b → Ring.Same b (s.cap b) (s.ring b) (t.ring b) → sameAnswer (f (s.ring b)) (g (t.ring b))) :
    sameAnswer (live s b f) (live t b g) := by
  have hB := same_ring h b
  have ⟨hfault, _⟩ := hB
  by_cases hf : (s.ring b).fault = true
  · rw [live_of_faulted s b hf, live_of_faulted t b (hfault ▸ hf)]
    rfl
  · have hl : s.Live b := by simpa using hf
    rw [live_of_live s b hl, live_of_live t b (hfault.symm.trans hl)]
    exact hfg hl hB

/-! ## Operations -/

theorem acceptFrame_same (hN : 1 ≤ s.cap b) (h : s.Same t) (L : Nat) (o : PollOutcome) :
    sameAnswer (acceptFrame s b L o) (acceptFrame t b L o) := by
  refine same_live h fun hl hB => ?_
  rw [same_cap h b, ← same_count hB hl]
  by_cases hc : (s.ring b).count < L
  · simpa only [hc, if_true] using same_finish h hB _
  · obtain ⟨_, B', C', hs, ht, hrest⟩ := same_drain hN hB hl (Nat.not_lt.1 hc)
    simpa only [hc, if_false, hs, ht] using same_finish h hrest _

theorem execPush_same (h : s.Same t) (x : Byte) : sameAnswer (execPush b x s) (execPush b x t) :=
  same_live h fun hl hB => by
    rw [same_cap h b]
    exact same_finish h (same_push hB hl x) _

theorem execPop_same (hN : 1 ≤ s.cap b) (h : s.Same t) : sameAnswer (execPop b s) (execPop b t) := by
  refine same_live h fun hl hB => ?_
  rw [same_cap h b]
  obtain ⟨x, B', C', hs, ht, hrest⟩ := same_pop hN hB hl
  rw [hs, ht]
  cases x with
  | none => exact same_finish h hrest _
  | some x => exact same_finish h hrest _

theorem execPeek_same (hN : 1 ≤ s.cap b) (h : s.Same t) : sameAnswer (execPeek b s) (execPeek b t) := by
  refine same_live h fun hl hB => ?_
  rw [same_cap h b, ← same_peek hN hB hl]
  cases (s.ring b).peek b (s.cap b) with
  | none => exact same_finish h hB _
  | some x => exact same_finish h hB _

theorem execCount_same (h : s.Same t) : sameAnswer (execCount b s) (execCount b t) :=
  same_live h fun hl hB => by
    rw [Ring.countValue, Ring.countValue, ← same_count hB hl]
    exact same_finish h hB _

theorem execFree_same (h : s.Same t) : sameAnswer (execFree b s) (execFree b t) :=
  same_live h fun hl hB => by
    rw [same_cap h b, Ring.freeValue, Ring.freeValue, ← same_count hB hl]
    exact same_finish h hB _

/-- The same bytes are drained and the same free values drawn, so the outcome is the same (R87, R94). -/
theorem pollFrame_same {dir : Dir} {row : TypeRow} (hN : 1 ≤ s.cap b) (h : s.Same t) (hB : Ring.Same b (s.cap b) B C)
    (hf : B.fault = false) : sameAnswer (pollFrame s b dir row B) (pollFrame t b dir row C) := by
  have ⟨hcfg, _⟩ := h
  have ⟨_, hdraws, _⟩ := hB
  unfold pollFrame
  rw [same_cap h b, ← hcfg, ← hdraws, ← same_count hB hf]
  by_cases hc : B.count < row.length
  · simpa only [hc, if_true] using same_finish h hB _
  · obtain ⟨bytes, B', C', hs, ht, hrest⟩ := same_drain hN hB hf (Nat.not_lt.1 hc)
    simp only [hc, if_false, hs, ht]
    cases drainedOutcome s.cfg b B.draws row bytes.tail with
    | none => rfl
    | some o => exact same_finish h (same_drawn hrest _) _

theorem execDecode_same (hN : 1 ≤ s.cap b) (h : s.Same t) (dir : Dir) :
    sameAnswer (execDecode b dir s) (execDecode b dir t) := by
  have ⟨hcfg, _⟩ := h
  refine same_live h fun hl hB => ?_
  have hscan := same_scan hN hB
  have hf : ((s.ring b).scan b (s.cap b)).fault = false := by simpa using hl
  rw [same_cap h b, ← hcfg, ← same_peek hN hscan hf]
  cases ((s.ring b).scan b (s.cap b)).peek b (s.cap b) with
  | none => exact same_finish h hscan _
  | some x =>
    dsimp only
    cases s.cfg.lookupType dir (groupOf x) with
    | none => exact same_finish h (same_popped hN hscan) _
    | some row =>
      cases hok : row.ok dir
      · simp only [hok]; rfl
      · simpa only [hok, if_true] using pollFrame_same hN h hscan hf

theorem execEncode_same (h : s.Same t) (m : Message) : sameAnswer (execEncode b m s) (execEncode b m t) := by
  have ⟨hcfg, _⟩ := h
  refine same_live h fun hl hB => ?_
  rw [same_cap h b, ← hcfg]
  cases hrow : s.cfg.entryOf m.kind with
  | none => rfl
  | some row =>
    cases hok : row.ok m.kind.dir
    · simp only [hok]; rfl
    · cases hq : encodePayload (catalogOf s.cfg m.kind) m.payload with
      | none => simp only [hok]; rfl
      | some q =>
        have hlen : row.length = q.length + 1 := by
          rw [row_ok_length hok, (entryOf_some hrow).2, encodePayload_length _ m q hq]
        simp only [hok, if_true, Ring.freeValue, ← same_count hB hl]
        by_cases hfull : s.cap b - (s.ring b).count < row.length
        · simpa only [hfull, if_true] using same_finish h hB _
        · have hfit : (s.ring b).count + (typeByte row.code :: q).length ≤ s.cap b := by
            rw [List.length_cons]; omega
          simpa only [hfull, if_false] using same_finish h (same_pushAll hB hl hfit) _

/-- Every instruction answers two devices that are the same alike. -/
theorem exec_same (hN : ∀ b, 1 ≤ s.cap b) (h : s.Same t) (i : Instr) : sameAnswer (exec i s) (exec i t) := by
  have hframe (hi : opSelect i = none) : sameAnswer (exec i s) (exec i t) := by
    obtain ⟨L, o, hexec⟩ := exec_of_frame hi
    have ⟨hcfg, _⟩ := h
    rw [hexec, hexec, ← hcfg]
    exact acceptFrame_same (hN _) h L _
  cases i with
  | push b x => exact execPush_same h x
  | pop b => exact execPop_same (hN b) h
  | peek b => exact execPeek_same (hN b) h
  | count b => exact execCount_same h
  | free b => exact execFree_same h
  | decode b dir => exact execDecode_same (hN b) h dir
  | encode b m => exact execEncode_same h m
  | _ => exact hframe rfl

/-- Settles O11: the two devices have the same pending events, so they do the same thing, on buffers that are the same. -/
theorem cursorsAndFreeElementsAreUnobservable : Obligations.CursorsAndFreeElementsAreUnobservable := by
  intro s t hN h
  have ⟨_, _, hschedule, _⟩ := h
  rcases step_cases s.schedule with hstep | ⟨b, hstep⟩ | hstep | ⟨_, _, i, -, -, hstep⟩ <;>
    rw [hstep s rfl, hstep t hschedule.symm]
  · exact h
  · exact same_restart (same_taken h) b
  · exact same_taken h
  · exact exec_same (by simpa using hN) (same_taken h) i

end Sys2Proof.Machine
end

section
/-! PROOF. What a step makes of the pending events, as equations (R41, R163, R182), and what each agent's role lets an operation do
to `count` (R42, R43): a producer's never lowers it, a consumer's never raises it. -/

namespace Sys2Proof.Machine

variable {s t : State} {b : Buf} {i : Instr}

/-! ## A step by its next event -/

theorem taken_of_schedule {e : Event} {rest : List Event} (hs : s.schedule = e :: rest) :
    s.taken = { s with schedule := rest } := by
  rw [State.taken, hs, List.tail_cons]

theorem step_of_no_event (hs : s.schedule = []) : step s = .next s := by
  simp only [step, hs]

theorem step_of_operation {r : Request} {rest : List Event} (hs : s.schedule = .request r :: rest)
    (hd : decodeRequest r = .ok i) : step s = exec i { s with schedule := rest } := by
  simp only [step, hs, hd, taken_of_schedule hs]

theorem step_of_no_operation {r : Request} {rest : List Event} {e : DecodeError} (hs : s.schedule = .request r :: rest)
    (hd : decodeRequest r = .error e) : step s = .next { s with schedule := rest } := by
  simp only [step, hs, hd, taken_of_schedule hs]

/-- Settles O21: one equation of `step` for each way the schedule can begin. -/
theorem stepRunsTheNextRequest : Obligations.StepRunsTheNextRequest :=
  ⟨fun _ => step_of_no_event, fun _ _ _ hs => ⟨fun _ => step_of_operation hs, fun _ => step_of_no_operation hs⟩⟩

/-! ## What the roles allow -/

/-- A producer pushes, encodes and asks for the free count. -/
theorem mayInvoke_producer {a : Agent} {role : Role} (ha : a = .receiveTransport ∨ a = .encoderCaller)
    (h : a.mayInvoke role i = true) : (∃ b x, i = .push b x) ∨ (∃ b m, i = .encode b m) ∨ ∃ b, i = .free b := by
  cases i with
  | push b x => exact .inl ⟨b, x, rfl⟩
  | encode b m => exact .inr (.inl ⟨b, m, rfl⟩)
  | free b => exact .inr (.inr ⟨b, rfl⟩)
  | _ => rcases ha with rfl | rfl <;> cases h

/-- A consumer neither pushes nor encodes. -/
theorem mayInvoke_consumer {a : Agent} {role : Role} (ha : a = .decoderCaller ∨ a = .transmitTransport)
    (h : a.mayInvoke role i = true) : (∀ b x, i ≠ .push b x) ∧ ∀ b m, i ≠ .encode b m := by
  constructor <;> rintro b y rfl <;> rcases ha with rfl | rfl <;> cases h

/-! ## What they do to the count -/

/-- A push below capacity stores its byte and counts it (R72). -/
theorem count_le_of_push {x : Byte} (h : exec (.push b x) s = .next t) (hroom : (s.ring b).count < s.cap b) :
    (s.ring b).count ≤ (t.ring b).count := by
  have hl : s.Live b := live_of_exec_next h
  cases (execPush_live hl x).symm.trans h
  simp [Ring.push, hroom]

/-- `ENCODE` appends a frame that fits or leaves the buffer alone (R99, R100). -/
theorem count_le_of_encode {m : Message} (h : exec (.encode b m) s = .next t) :
    (s.ring b).count ≤ (t.ring b).count := by
  rcases execEncode_cases b m s with ⟨-, hstop⟩ | ⟨r, hstop⟩ | ⟨-, -, hnext⟩ | ⟨-, hfit, xs, hlen, hnext⟩
  · cases hstop.symm.trans h
  · cases hstop.symm.trans h
  · cases hnext.symm.trans h
    simp
  · cases hnext.symm.trans h
    have hpos := kind_length_pos m.kind
    have hcount := pushAll_count (b := b) (N := s.cap b) xs (s.ring b) (by omega)
    simp [hcount]

/-- An instruction that neither pushes nor encodes never raises the count of either buffer (R39, R74, R82, R92). -/
theorem count_le_of_reader (h : exec i s = .next t) (hpush : ∀ b x, i ≠ .push b x) (hencode : ∀ b m, i ≠ .encode b m) :
    (t.ring b).count ≤ (s.ring b).count := by
  by_cases hb : bufOf i = b
  · obtain ⟨⟨m, n, hm, hring⟩, -⟩ := readersWriteOnlyTheCount i s t b h hb (hpush b) (hencode b)
    rw [hring]
    exact hm
  · rw [otherBufferIsUntouched i s t b h (Ne.symm hb)]

/-- A push below capacity, an `ENCODE` and a `FREE` never lower the count of either buffer. -/
theorem count_le_of_producer (h : exec i s = .next t) (hroom : ∀ x, i = .push b x → (s.ring b).count < s.cap b)
    (hi : (∃ b x, i = .push b x) ∨ (∃ b m, i = .encode b m) ∨ ∃ b, i = .free b) :
    (s.ring b).count ≤ (t.ring b).count := by
  by_cases hb : b = bufOf i
  · subst hb
    rcases hi with ⟨c, x, rfl⟩ | ⟨c, m, rfl⟩ | ⟨c, rfl⟩
    · exact count_le_of_push h (hroom x rfl)
    · exact count_le_of_encode h
    · cases (execFree_live (live_of_exec_next h)).symm.trans h
      simp
  · rw [otherBufferIsUntouched i s t b h hb]

/-- Settles O56: by what each role allows; `FREE` is the capacity less the count. -/
theorem rolesOnlyHelpEachOther : Obligations.RolesOnlyHelpEachOther := by
  intro i s t a b h hrole hroom
  refine ⟨fun ha => count_le_of_producer h hroom (mayInvoke_producer ha hrole), fun ha => ?_⟩
  obtain ⟨hpush, hencode⟩ := mayInvoke_consumer ha hrole
  exact Nat.sub_le_sub_left (count_le_of_reader h hpush hencode) _

end Sys2Proof.Machine
end

section
/-! PROOF. The encoding both ways (30_encoding.md): the bytes of a frame as numbers and by their mark (R49, R50, R55, R66), the
decoder on the words of every instruction (R51, R163), and the poll of a known and complete frame (R59). -/

namespace Sys2Proof

/-! ## Type bytes, groups and ids -/

theorem typeByte_toNat (t : BitVec 7) : (typeByte t).toNat = 128 + t.toNat := by
  have ht : t.toNat < 2 ^ 7 := t.isLt
  calc (typeByte t).toNat = 2 ^ 7 * 1 ||| t.toNat := by
        rw [typeByte, BitVec.toNat_or, BitVec.toNat_setWidth_of_le (by decide)]; rfl
    _ = 2 ^ 7 * 1 + t.toNat := (Nat.two_pow_add_eq_or_of_lt ht 1).symm

/-- A marked byte is the type byte of its own code (R49). -/
theorem typeByte_groupOf {x : Byte} (hx : x.marked = true) : typeByte (groupOf x) = x := by
  apply BitVec.eq_of_getLsbD_eq
  intro i hi
  rw [typeByte_getLsbD, groupOf_getLsbD]
  rcases Nat.lt_or_eq_of_le (Nat.le_of_lt_succ hi) with h7 | rfl
  · simp [h7, h7.ne]
  · exact hx.symm

theorem groupOf_toNat (x : Byte) : (groupOf x).toNat = x.toNat % 128 := by simp [groupOf]

/-- Clearing bit 7 leaves the group (R54). -/
theorem groupOf_and_mask (x : Byte) : groupOf (x &&& 0x7F#8) = groupOf x := by
  apply BitVec.eq_of_toNat_eq
  have hand : x.toNat &&& 127 = x.toNat % 128 := Nat.and_two_pow_sub_one_eq_mod _ 7
  simp [groupOf_toNat, hand]

/-- The 14-bit field as a number, low group first (R55, R108). -/
theorem assemble14_toNat (p0 p1 : Byte) :
    (assemble14 p0 p1).toNat = p0.toNat % 128 + 128 * (p1.toNat % 128) := by
  have hlow : p0.toNat % 128 < 2 ^ 7 := Nat.mod_lt _ (by decide)
  have hor := Nat.two_pow_add_eq_or_of_lt hlow (p1.toNat % 128)
  have h0 : p0.toNat % 128 % 16384 = p0.toNat % 128 := by omega
  have h1 : p1.toNat % 128 % 16384 * 128 % 16384 = 128 * (p1.toNat % 128) := by omega
  simp only [assemble14, BitVec.toNat_or, BitVec.toNat_setWidth, BitVec.toNat_shiftLeft, groupOf_toNat, Nat.shiftLeft_eq,
    Nat.reducePow, h0, h1]
  rw [Nat.or_comm, ← hor, Nat.add_comm]

theorem split14_eq_ofNat (w : BitVec 14) :
    split14 w = [BitVec.ofNat 8 (w.toNat % 128), BitVec.ofNat 8 (w.toNat / 128 % 128)] := by
  simp [split14, groupByte_eq_ofNat]

/-- Under `mask` no field is left open (D22). -/
theorem openGroups_mask (groups : List Byte) : openGroups .mask groups = false := rfl

theorem idByte_toNat (e : Entry) : (Machine.idByte e).toNat = e.id.toNat := by
  rw [Machine.idByte, BitVec.toNat_setWidth_of_le (by decide)]

end Sys2Proof

namespace Sys2Proof.Machine

theorem idByte_unmarked (e : Entry) : (idByte e).marked = false := by
  rw [marked_eq_false_iff, idByte_toNat]
  exact e.id.isLt

theorem encodeBool_unmarked (f : Bool) : (encodeBool f).marked = false := by cases f <;> rfl

theorem split14_unmarked {w : BitVec 14} : ∀ x ∈ split14 w, x.marked = false := by
  simp [split14, groupByte_unmarked]

theorem split28_unmarked {n : BitVec 28} : ∀ x ∈ split28 n, x.marked = false := by
  simp [split28, groupByte_unmarked]

/-- No marked byte is an id: ids have seven bits (R121, D23). -/
theorem lookupId_marked (c : Catalog) {k : Byte} (hk : k.marked = true) : lookupId c k = none := by
  have hbig : ¬ k.toNat < 128 := by simp [← marked_eq_false_iff, hk]
  rw [lookupId, List.find?_eq_none]
  intro e _ he
  have hid : e.id.toNat < 128 := e.id.isLt
  exact hbig (by simpa using (beq_iff_eq.1 he) ▸ hid)

/-- What the encoder writes after the type byte carries no mark (R50, R103). -/
theorem encodePayload_unmarked {c : Catalog} {p : Payload} {q : List Byte} (h : encodePayload c p = some q) :
    ∀ x ∈ q, x.marked = false := by
  cases p with
  | none => cases h; simp
  | flag f => cases h; simp [encodeBool_unmarked]
  | ident e =>
    obtain ⟨x, -, rfl⟩ := Option.map_eq_some_iff.1 h
    simp [idByte_unmarked]
  | value e v =>
    simp only [encodePayload] at h
    split at h
    · cases h
    · obtain ⟨w, -, rfl⟩ := Option.map_eq_some_iff.1 h
      simpa [idByte_unmarked] using split14_unmarked
  | sequence n => cases h; exact split28_unmarked

/-! ## Decode of encode -/

/-- A kind's frame in a well-formed configuration: a marked head that finds the kind's usable entry, then the payload (R60,
R101). -/
theorem frameOf_eq {cfg : Config} (hw : cfg.wf = true) (b : Buf) (k : Kind) (p : List Byte) :
    ∃ (h : Byte) (row : TypeRow), frameOf cfg b k p = some (.frame b k.dir (h :: p)) ∧ h.marked = true ∧
      cfg.lookupType k.dir (groupOf h) = some row ∧ row.ok k.dir = true ∧ row.kind = k := by
  obtain ⟨row, hrow⟩ := entryOf_total hw k
  refine ⟨typeByte row.code, row, by rw [frameOf, hrow]; rfl, typeByte_marked _, ?_, entryOf_ok hw hrow,
    (entryOf_some hrow).2⟩
  rw [groupOf_typeByte, lookupType_code hw hrow]

/-- A frame reads back if its payload does behind every marked head that finds the kind's usable entry. -/
theorem decode_encode_of_frameOf {cfg : Config} (hw : cfg.wf = true) {i : Instr} {b : Buf} {k : Kind} {p : List Byte}
    {draw : Nat} (henc : encode cfg i = frameOf cfg b k p)
    (hread : ∀ h row, h.marked = true → cfg.lookupType k.dir (groupOf h) = some row → row.ok k.dir = true →
      row.kind = k → decodeFrame cfg draw b k.dir (h :: p) = .ok i) :
    ∃ e, encode cfg i = some e ∧ decode cfg draw e = .ok i := by
  obtain ⟨h, row, hframe, hh, hrow, hok, hkind⟩ := frameOf_eq hw b k p
  exact ⟨_, henc.trans hframe, hread h row hh hrow hok hkind⟩

/-- Every frame reads back: the groups of its fields assemble to what they were made of (R51, R109, R111). -/
theorem decode_encode_of_frame {cfg : Config} (hw : cfg.wf = true) {i : Instr} (hi : opSelect i = none) (draw : Nat) :
    ∃ e, encode cfg i = some e ∧ decode cfg draw e = .ok i := by
  cases i with
  | push | pop | peek | count | free | decode | encode => cases hi
  | _ =>
    refine decode_encode_of_frameOf hw rfl fun h row hh hrow hok hkind => ?_
    simp [decodeFrame, hh, hrow, hok, hkind, split14, split28, wireField_groups, sequenceField_groups]

/-- Every operation's request reads back: its select number names it, its operands stand at their ports (R163). -/
theorem decode_encode_of_operation (cfg : Config) {i : Instr} (hi : opSelect i ≠ none) (draw : Nat) :
    ∃ e, encode cfg i = some e ∧ decode cfg draw e = .ok i := by
  cases i with
  | push | pop | peek | count | free | decode | encode => exact ⟨_, rfl, rfl⟩
  | _ => exact absurd rfl hi

/-- Settles O45: frames by the codecs' inverses, operations by their select numbers. -/
theorem decodeInvertsEncode : Obligations.DecodeInvertsEncode := by
  intro cfg i draw hw
  by_cases hi : opSelect i = none
  · exact decode_encode_of_frame hw hi draw
  · exact decode_encode_of_operation cfg hi draw

/-! ## The poll of a known and complete frame -/

/-- What decodes at the head of the scanned buffer is fetched, its free values drawn. -/
theorem fetchFrame_ok {s : State} {b : Buf} {dir : Dir} {i : Instr}
    (hd : decodeFrame s.cfg ((s.ring b).scan b (s.cap b)).draws b dir
      (((s.ring b).scan b (s.cap b)).queue b (s.cap b)) = .ok i) :
    ∃ n, fetchFrame s b dir = .ok (i, s.setRing b (((s.ring b).scan b (s.cap b)).drawn n)) :=
  ⟨_, by simp only [fetchFrame, hd]; rfl⟩

/-- Settles O18: the scan stops at the frame's head, and the frame decoder reads it there. -/
theorem knownCompleteFramesAreFetched : Obligations.KnownCompleteFramesAreFetched := by
  intro s b dir g rest h row hN hq hg hh hrow hok hlen
  obtain ⟨i, hd, hb, hop⟩ := decodeFrame_ok s.cfg ((s.ring b).scan b (s.cap b)).draws b dir h rest row hh hrow hok hlen
  rw [← scan_queue_marked hN hq hg hh] at hd
  obtain ⟨n, hfetch⟩ := fetchFrame_ok hd
  refine ⟨i, n, hb, hop, ?_⟩
  rw [hfetch, scan_eq, scan_count_marked hN hq hg hh]
  rfl

/-! ## The bytes of a frame -/

/-- Settles O30: a type byte carries the start marker, and each format's payload bytes have seven bits. -/
theorem onlyTheTypeByteIsMarked : Obligations.OnlyTheTypeByteIsMarked :=
  ⟨typeByte_marked, fun _ _ _ => encodePayload_unmarked⟩

/-- Settles O39: the field as a number, and that the groups assemble to what they were made of. -/
theorem fourteenBitGroups : Obligations.FourteenBitGroups :=
  ⟨assemble14_toNat, split14_eq_ofNat, fun w => ⟨_, _, rfl, assemble14_groups w⟩, fun _ => rfl⟩

/-- Settles O44: under `mask` fields are assembled, from groups alone; ids and 0x00 are unmarked. -/
theorem markedPayloadBytesUnderMask : Obligations.MarkedPayloadBytesUnderMask := by
  refine ⟨fun b draw p0 p1 => ?_, fun b draw p0 p1 p2 p3 => ?_, fun c k => lookupId_marked c, fun p hp => ?_⟩
  · simp [wireField, openGroups_mask, assemble14, groupOf_and_mask]
  · simp [sequenceField, openGroups_mask, assemble28, groupOf_and_mask]
  · refine bne_iff_ne.2 ?_
    rintro rfl
    cases hp

/-- Settles O42: the marker is bit 7 and the code the seven bits below it. -/
theorem typeByteCarriesMarkerAndCode : Obligations.TypeByteCarriesMarkerAndCode :=
  ⟨fun t => ⟨typeByte_marked t, groupOf_typeByte t, typeByte_toNat t⟩, fun _ => typeByte_groupOf⟩

/-- Settles O47: each of the five frames is evaluated in REF. -/
theorem sampleWordsDecode : Obligations.SampleWordsDecode :=
  ⟨by decide, by decide, by decide, by decide, by decide⟩

end Sys2Proof.Machine
end

section
/-! PROOF. The ring-buffer operations (40_ringbuffer.md): what a push leaves on either side of the capacity (R72, R73), what a pop,
a peek and the two counters answer (R74 to R77), and that together they are the operations of a bounded queue (R42, R78). -/

namespace Sys2Proof.Machine

variable {s : State} {b : Buf} {N : Nat} {B : Ring}

/-! ## The fault mark across an update -/

@[simp] theorem live_setResult (r : Result) : (s.setResult r).Live b ↔ s.Live b := by rw [State.Live, setResult_ring]
@[simp] theorem live_setRing : (s.setRing b B).Live b ↔ B.fault = false := by rw [State.Live, setRing_ring]

/-! ## A push on either side of the capacity -/

theorem push_of_room (hc : B.count < N) (x : Byte) : B.push b N x = B.pushed N x := if_pos hc

/-- After a push the element at the old cursor is the youngest occupied one, so it reads as the pushed byte (R16, R72). -/
theorem element_pushed_cursor (hc : B.count < N) (x : Byte) : (B.pushed N x).element b N (B.wcur % N) = x := by
  have hN : 1 ≤ N := by omega
  have hslot : (B.pushed N x).slot N B.count = B.wcur % N := by rw [slot_pushed hN, slot_count hN]
  have hocc : (B.pushed N x).occupied N (B.wcur % N) = true :=
    (occupied_iff _ _ _).2 ⟨B.count, Nat.lt_succ_self _, hslot⟩
  rw [element_occupied hocc]
  simp [Ring.written, read_write_same]

theorem execPush_room (hl : s.Live b) (hc : (s.ring b).count < s.cap b) (x : Byte) :
    execPush b x s = .next ((s.setRing b ((s.ring b).pushed (s.cap b) x)).setResult .nothing) := by
  rw [execPush_live hl, push_of_room hc]

theorem execPush_full (hl : s.Live b) (hc : s.cap b ≤ (s.ring b).count) (x : Byte) :
    execPush b x s = .next ((s.setRing b ((s.ring b).overrun b (s.cap b) x)).setResult .nothing) := by
  rw [execPush_live hl, push_of_full hc]

/-! ## The queue at its two ends -/

/-- The byte written at the head index is the first of the queue (R19, R20). -/
theorem written_headIndex {x : Byte} {q : List Byte} (hN : 1 ≤ N) (hq : B.queue b N = x :: q) :
    B.written b (B.headIndex N) = x := by
  have hc : B.count ≠ 0 := by simp [← queue_length b N B, hq]
  have hpeek := peek_eq_head (b := b) hN B
  rw [peek_eq_written, if_neg hc, hq] at hpeek
  exact Option.some.inj hpeek

/-- A push that finds room appends its byte to the queue of the device (R78). -/
theorem execPush_queue (hl : s.Live b) (hc : (s.ring b).count < s.cap b) (x : Byte) :
    ∃ t, execPush b x s = .next t ∧ t.Live b ∧
      (t.ring b).queue b (t.cap b) = (s.ring b).queue b (s.cap b) ++ [x] :=
  ⟨_, execPush_room hl hc x, by simpa using hl, by simp [queue_pushed hc]⟩

/-- A pop that finds a byte takes the first one off the queue of the device (R78). -/
theorem execPop_queue {x : Byte} {q : List Byte} (hl : s.Live b) (hN : 1 ≤ s.cap b)
    (hq : (s.ring b).queue b (s.cap b) = x :: q) :
    ∃ t, execPop b s = .next t ∧ t.result = .byte x ∧ t.Live b ∧ (t.ring b).queue b (t.cap b) = q := by
  have hc : (s.ring b).count ≠ 0 := by simp [← queue_length b (s.cap b) (s.ring b), hq]
  refine ⟨_, execPop_nonempty hl hc, ?_, by simpa using hl, by simp [queue_popped hN, hq]⟩
  rw [setResult_result, written_headIndex hN hq]

/-- A pop right after a peek answers the same (R75). -/
theorem execPop_after_execPeek (hl : s.Live b) :
    ∃ t u, execPeek b s = .next t ∧ execPop b t = .next u ∧ u.result = t.result := by
  have hlive (r : Result) : (s.setResult r).Live b := (live_setResult r).2 hl
  by_cases hc : (s.ring b).count = 0
  · exact ⟨_, _, execPeek_empty hl hc, execPop_empty (hlive _) (by simpa using hc), rfl⟩
  · exact ⟨_, _, execPeek_nonempty hl hc, execPop_nonempty (hlive _) (by simpa using hc), by simp⟩

/-! ## The statements -/

/-- Settles O9: the count is the queue's length; the rest is by whether the queue has a first byte. -/
theorem ringRefinesABoundedQueue : Obligations.RingRefinesABoundedQueue := by
  intro s b q hl hN hq
  have hcount : (s.ring b).count = q.length := by rw [← hq, queue_length]
  refine ⟨hcount ▸ execCount_live hl, hcount ▸ execFree_live hl, ?_, ?_, fun x hx => ?_⟩
  · cases q with
    | nil => exact execPeek_empty hl hcount
    | cons x q => exact written_headIndex hN hq ▸ execPeek_nonempty hl (by simp [hcount])
  · cases q with
    | nil => exact ⟨_, execPop_empty hl hcount, rfl, by simpa using hl, by simpa using hq⟩
    | cons x q => exact execPop_queue hl hN hq
  · exact hq ▸ execPush_queue hl (hcount ▸ hx) x

/-- Settles O10: the pushes make the list the queue, the drain returns the front of the queue and lowers the count alone. -/
theorem burstsComeBackInOrder : Obligations.BurstsComeBackInOrder := by
  intro b N B xs hN hw ⟨hempty, hfault⟩ hlen
  have hfit : B.count + xs.length ≤ N := by omega
  have hqueue : (B.pushAll b N xs).queue b N = xs := by rw [pushAll_queue xs B hfit, queue_of_count_zero hempty]; rfl
  have hcount : (B.pushAll b N xs).count = xs.length := by rw [pushAll_count xs B hfit, hempty, Nat.zero_add]
  rw [drain_eq hN xs.length (B.pushAll b N xs) hcount.ge, hqueue, hcount]
  exact ⟨List.take_length, ⟨Nat.sub_self _, (pushAll_fault xs B hfit).trans hfault⟩, pushAll_wcur hN xs B hfit hw⟩

/-- Settles O3: the device after the push is `pushed`, one field each. -/
theorem pushWritesAtTheCursor : Obligations.PushWritesAtTheCursor := by
  intro s b x hl hc
  have hother (i : Nat) (hi : i ≠ (s.ring b).wcur % s.cap b) :
      ((s.ring b).pushed (s.cap b) x).storage.read i = (s.ring b).storage.read i := read_write_other _ _ _ _ hi
  refine ⟨_, execPush_room hl hc x, rfl, ?_⟩
  simpa [read_write_same, element_pushed_cursor hc, hl] using ⟨hother, fun c hne => setRing_ring_ne s b c _ hne⟩

/-- Settles O4: the device after the push is `overrun`, which keeps the one write and sets the mark. -/
theorem pushOnFullSetsTheFaultMark : Obligations.PushOnFullSetsTheFaultMark := by
  intro s b x hl hc
  refine ⟨_, execPush_full hl hc.ge x, rfl, ?_⟩
  simpa [Memory.read] using fun c hne => setRing_ring_ne s b c _ hne

/-- Settles O6: an empty buffer and one with a byte at the head index. -/
theorem popReturnsTheOldestByte : Obligations.PopReturnsTheOldestByte :=
  ⟨fun _ => rfl, fun _ _ hl => ⟨execPop_empty hl, fun hc => execPop_nonempty hl hc.ne'⟩⟩

/-- Settles O7: a peek by the same two cases, then a pop on a device that differs in the result alone. -/
theorem peekKeepsTheOldestByte : Obligations.PeekKeepsTheOldestByte :=
  ⟨fun _ => rfl, fun _ _ hl =>
    ⟨execPeek_empty hl, fun hc => execPeek_nonempty hl hc.ne', execPop_after_execPeek hl⟩⟩

/-- Settles O8: both counters return what they say; the rest is subtraction below the capacity. -/
theorem countAndFreeAreExact : Obligations.CountAndFreeAreExact := by
  refine ⟨fun _ => ⟨rfl, rfl⟩, fun cfg b => ?_, fun s b hl => ⟨execCount_live hl, execFree_live hl, fun hle => ?_⟩⟩
  · obtain ⟨-, -, -, hcount, -⟩ := freshDeviceIsEmpty cfg b .ctl
    exact ⟨_, hcount, rfl⟩
  · exact ⟨Nat.sub_add_cancel hle, Nat.sub_eq_zero_iff_le.trans ⟨fun h => le_antisymm hle h, fun h => h.ge⟩⟩

end Sys2Proof.Machine
end

section
/-! PROOF. The resync scan (R82) and the poll behind garbage (R85): an encoded value, payload and frame read back as what they
carry, scaled values quantized (R105), and the scan brings the frame to the head of the queue. -/

namespace Sys2Proof.Machine

variable {s : State} {b : Buf} {N : Nat}

/-! ## The scan -/

/-- What a scan leaves is empty or starts with a marked byte (R82). -/
theorem scan_head_marked (hN : 1 ≤ N) (b : Buf) (B : Ring) : ∀ x ∈ ((B.scan b N).queue b N).head?, x.marked = true := by
  intro x hx
  have hstop := List.head?_dropWhile_not (fun y : Byte => !y.marked) (B.queue b N)
  rw [← scan_queue hN, hx] at hstop
  simpa using hstop

/-- Settles O12: the three laws of the scan, its queue, its frame and its head. -/
theorem scanDropsTheGarbagePrefix : Obligations.ScanDropsTheGarbagePrefix :=
  fun b N B hN => ⟨scan_queue hN b B, scan_eq b N B, scan_head_marked hN b B⟩

/-! ## Raw values on the wire -/

/-- Forcing bits 14 and 15 where bit 13 is set is the sign extension to 16 bits (R56, R112). -/
theorem signExtend14_eq_toInt (w : BitVec 14) : signExtend14 w = w.toInt := by
  have hmsb : w.msb = w.getLsbD 13 := BitVec.msb_eq_getLsbD_last w
  have hbits : (if w.getLsbD 13 then w.setWidth 16 ||| 0xC000#16 else w.setWidth 16) = w.signExtend 16 := by
    cases h13 : w.getLsbD 13
    · exact (BitVec.signExtend_eq_setWidth_of_msb_false (hmsb.trans h13)).symm
    · apply BitVec.eq_of_getLsbD_eq
      intro i hi
      rw [if_pos rfl, BitVec.getLsbD_or, BitVec.getLsbD_setWidth, BitVec.getLsbD_signExtend, hmsb, h13]
      interval_cases i <;> simp
  rw [signExtend14, hbits, BitVec.toInt_signExtend_of_le (by decide)]

/-- `SignExtend14` undoes `ToWire14` on the signed 14-bit range (R112). -/
theorem signExtend14_toWire14 {r : Int} (hlo : -8192 ≤ r) (hhi : r ≤ 8191) : signExtend14 (toWire14 r) = r := by
  rw [signExtend14_eq_toInt]
  exact BitVec.toInt_ofInt_eq_self (by decide) hlo (Int.lt_add_one_of_le hhi)

theorem clampInt_mem {lo hi : Int} (h : lo ≤ hi) (x : Int) : lo ≤ clampInt x lo hi ∧ clampInt x lo hi ≤ hi := by
  unfold clampInt
  split_ifs <;> omega

/-- The wire value of a scaled value has the quantized raw value (R55, R56, R115, R116). -/
theorem rawOfWire_quantize {scale : Nat} {signed : Bool} {lo hi : Int} (hw : (EntryKind.scaled scale signed lo hi).wf = true)
    (v : Rat) :
    rawOfWire signed (if signed then toWire14 (quantize scale lo hi v) else BitVec.ofNat 14 (quantize scale lo hi v).toNat) =
      quantize scale lo hi v := by
  simp only [EntryKind.wf, Bool.and_eq_true, decide_eq_true_eq] at hw
  obtain ⟨⟨-, hle⟩, hrange⟩ := hw
  obtain ⟨hlo, hhi⟩ : lo ≤ quantize scale lo hi v ∧ quantize scale lo hi v ≤ hi := clampInt_mem hle _
  cases signed with
  | true =>
    simp only [if_true, Bool.and_eq_true, decide_eq_true_eq] at hrange
    exact signExtend14_toWire14 (by omega) (by omega)
  | false =>
    simp only [Bool.false_eq_true, if_false, Bool.and_eq_true, decide_eq_true_eq] at hrange
    simp only [rawOfWire, Bool.false_eq_true, if_false, BitVec.toNat_ofNat]
    omega

/-! ## Catalog lookups -/

/-- A search finds an element that alone in the list meets the test. -/
theorem find?_of_unique {α : Type} {p : α → Bool} {l : List α} {a : α} (ha : a ∈ l) (hp : p a = true)
    (huniq : ∀ x ∈ l, p x = true → x = a) : l.find? p = some a := by
  obtain ⟨x, hx⟩ := Option.isSome_iff_exists.1 (List.find?_isSome.2 ⟨a, ha, hp⟩)
  rw [hx, huniq x (List.mem_of_find?_eq_some hx) (List.find?_some hx)]

theorem entryNamed_some {c : Catalog} {e : String} {x : Entry} (h : entryNamed c e = some x) : x ∈ c ∧ x.name = e :=
  ⟨List.mem_of_find?_eq_some h, by simpa using List.find?_some h⟩

theorem catalog_entry_wf {c : Catalog} (hw : c.wf = true) {x : Entry} (hx : x ∈ c) : x.kind.wf = true := by
  simp only [Catalog.wf, Bool.and_eq_true, List.all_eq_true] at hw
  exact hw.1.1 x hx

/-- An entry is found by its own id byte (R121, R122). -/
theorem lookupId_idByte {c : Catalog} (hw : c.wf = true) {x : Entry} (hx : x ∈ c) : lookupId c (idByte x) = some x := by
  simp only [Catalog.wf, Bool.and_eq_true, decide_eq_true_eq] at hw
  refine find?_of_unique hx (beq_iff_eq.2 (idByte_toNat x).symm) fun y hy hid => ?_
  rw [beq_iff_eq, idByte_toNat] at hid
  exact List.inj_on_of_nodup_map hw.1.2 hy hx (BitVec.eq_of_toNat_eq hid)

theorem catalogOf_wf {cfg : Config} (hw : cfg.wf = true) (k : Kind) : (catalogOf cfg k).wf = true := by
  obtain ⟨hparam, hstat⟩ := catalogs_wf hw
  cases k with
  | ctlGetParameter | ctlSetParameter | remGetParameterResult => exact hparam
  | ctlGetStatistic | remGetStatisticResult => exact hstat
  | _ => rfl

/-! ## Values, payloads and messages through the wire -/

/-- An encoded value decodes to the value it carries: a scaled one quantized, a member itself (R105, R118 to R120). -/
theorem decodeValue_encodeValue {c : Catalog} (hw : c.wf = true) {e : String} {x : Entry} (hx : entryNamed c e = some x)
    {v : PhysValue} {w : BitVec 14} (henc : encodeValue x.kind v = some w) :
    decodeValue x.kind w = some (carriedValue c e v) := by
  have hkw := catalog_entry_wf hw (entryNamed_some hx).1
  cases hk : x.kind with
  | scaled scale signed lo hi =>
    rw [hk] at hkw henc
    cases v with
    | member m => cases henc
    | scaled q =>
      cases henc
      simp only [decodeValue, carriedValue, hx, hk, rawOfWire_quantize hkw]
  | enum members =>
    rw [hk] at hkw henc
    cases v with
    | scaled q => cases henc
    | member m =>
      obtain ⟨p, hp, rfl⟩ := Option.map_eq_some_iff.1 henc
      have hraws : (members.map Prod.fst).Nodup := of_decide_eq_true hkw
      have hfind : members.find? (fun r => r.1 == p.1) = some p :=
        find?_of_unique (List.mem_of_find?_eq_some hp) (beq_self_eq_true _) fun r hr hraw =>
          List.inj_on_of_nodup_map hraws hr (List.mem_of_find?_eq_some hp) (beq_iff_eq.1 hraw)
      have hname : p.2 = m := by simpa using List.find?_some hp
      simp [decodeValue, hfind, hname, carriedValue, hx]

/-- What a payload becomes on its way through the wire (R105): its value quantized, the rest kept. -/
def carriedPayload (c : Catalog) : Payload → Payload
  | .value e v => .value e (carriedValue c e v)
  | p => p

theorem carriedMessage_payload (cfg : Config) (m : Message) :
    (carriedMessage cfg m).payload = carriedPayload (catalogOf cfg m.kind) m.payload := by cases m <;> rfl

theorem carriedMessage_kind (cfg : Config) (m : Message) : (carriedMessage cfg m).kind = m.kind := by cases m <;> rfl

theorem payloadFormat_payload (m : Message) : payloadFormat m.payload = m.kind.format := by cases m <;> rfl

/-- The payload bytes `ENCODE` writes decode to the payload they carry, under either policy (R94, R102, R105). -/
theorem decodePayload_encodePayload {cfg : Config} (hw : cfg.wf = true) (b : Buf) (draw : Nat) {k : Kind} {p : Payload}
    {q : List Byte} (hq : encodePayload (catalogOf cfg k) p = some q) :
    decodePayload cfg b draw k (payloadFormat p) q = some (.ok (carriedPayload (catalogOf cfg k) p)) := by
  have hc := catalogOf_wf hw k
  cases p with
  | none => cases hq; rfl
  | flag f => cases hq; cases f <;> rfl
  | ident e =>
    obtain ⟨x, hx, rfl⟩ := Option.map_eq_some_iff.1 hq
    obtain ⟨hmem, hname⟩ := entryNamed_some hx
    simp [payloadFormat, decodePayload, lookupId_idByte hc hmem, hname, carriedPayload]
  | value e v =>
    cases hx : entryNamed (catalogOf cfg k) e with
    | none => simp [encodePayload, hx] at hq
    | some x =>
      simp only [encodePayload, hx] at hq
      obtain ⟨w, henc, rfl⟩ := Option.map_eq_some_iff.1 hq
      obtain ⟨hmem, hname⟩ := entryNamed_some hx
      simp [payloadFormat, split14, decodePayload, lookupId_idByte hc hmem, wireField_groups, decodeValue_encodeValue hc hx henc,
        hname, carriedPayload]
  | sequence n =>
    cases hq
    simp [payloadFormat, split28, decodePayload, sequenceField_groups, carriedPayload]

/-! ## The frame, polled -/

/-- A payload without marks takes no free value (R50, U2). -/
theorem frameDraws_unmarked (policy : MarkedPolicy) (fmt : Format) {q : List Byte} (hq : ∀ x ∈ q, x.marked = false) :
    frameDraws policy fmt q = 0 := by
  have hclosed (l : List Byte) (hl : l ⊆ q) : openGroups policy l = false := by
    rw [openGroups, List.any_eq_false.2 fun x hx => by simp [hq x (hl hx)], Bool.and_false]
  cases fmt with
  | f0 | fb | fi => rfl
  | fv => rw [frameDraws, hclosed _ (List.drop_subset 1 q)]; rfl
  | fs => rw [frameDraws, hclosed _ (List.Subset.refl q)]; rfl

/-- The frame of a message has the carried message as its outcome (R94, R105). -/
theorem drainedOutcome_encodePayload {cfg : Config} (hw : cfg.wf = true) (b : Buf) (draw : Nat) {m : Message} {row : TypeRow}
    {q : List Byte} (hrow : cfg.entryOf m.kind = some row) (hq : encodePayload (catalogOf cfg m.kind) m.payload = some q) :
    drainedOutcome cfg b draw row q = some (.message (carriedMessage cfg m)) := by
  obtain ⟨-, hkind⟩ := entryOf_some hrow
  obtain ⟨-, hformat, -, -⟩ := (row_ok_iff _ _).1 (entryOf_ok hw hrow)
  have hpayload := decodePayload_encodePayload hw b draw hq
  rw [payloadFormat_payload, ← carriedMessage_payload] at hpayload
  have hmake := make_payload (carriedMessage cfg m)
  rw [carriedMessage_kind] at hmake
  simp [drainedOutcome, hformat, hkind, hpayload, hmake]

/-- A poll of garbage and a frame `ENCODE` writes drops the garbage, consumes the frame and returns the carried message; what
follows the frame stays (R82, R85, R93, R105). -/
theorem execDecode_encoded {m : Message} {row : TypeRow} {g q rest : List Byte} (hw : s.cfg.wf = true) (hl : s.Live b)
    (hrow : s.cfg.entryOf m.kind = some row) (hq : encodePayload (catalogOf s.cfg m.kind) m.payload = some q)
    (hg : ∀ x ∈ g, x.marked = false) (hqueue : (s.ring b).queue b (s.cap b) = g ++ typeByte row.code :: (q ++ rest)) :
    execDecode b m.kind.dir s = .next (s.polled b rest.length 0 (.message (carriedMessage s.cfg m))) := by
  have hok := entryOf_ok hw hrow
  have hlook : s.cfg.lookupType m.kind.dir (groupOf (typeByte row.code)) = some row := by
    rw [groupOf_typeByte, lookupType_code hw hrow]
  have hlen : row.length = q.length + 1 := by
    rw [row_ok_length hok, (entryOf_some hrow).2, encodePayload_length _ m q hq]
  have hframe : ((typeByte row.code :: (q ++ rest)).take row.length).tail = q := by simp [hlen]
  have hrest : (q ++ rest).length + 1 - row.length = rest.length := by rw [hlen, List.length_append]; omega
  have hpoll := execDecode_complete hl (capacity_pos hw b) hqueue hg (typeByte_marked _) hlook hok
    (by rw [hlen, List.length_append]; omega) (hframe.symm ▸ drainedOutcome_encodePayload hw b _ hrow hq)
  rwa [hframe, hrest, frameDraws_unmarked _ _ (encodePayload_unmarked hq)] at hpoll

/-- Settles O34: the poll of an encoded frame behind garbage, with nothing after the frame. -/
theorem garbageThenAFrameIsOnePoll : Obligations.GarbageThenAFrameIsOnePoll := by
  intro s b m row g q hw _ hl _ hrow hq hg hqueue
  exact execDecode_encoded (rest := []) hw hl hrow hq hg (by rwa [List.append_nil])

end Sys2Proof.Machine
end

section
/-! PROOF. The poll (42_decode.md) by what the scan brings to the head of the queue: nothing (R88), an unknown type code (R90), a
frame that is not all there (R91) or a whole one (R92, R93), which is the frame's own instruction (R87, R94). -/

namespace Sys2Proof.Machine

variable {s u : State} {b : Buf} {dir : Dir} {g rest : List Byte} {h : Byte} {row : TypeRow} {i : Instr}

/-! ## The poll by its head byte -/

/-- A poll that finds no byte after the scan (R88). -/
theorem execDecode_no_head (hl : s.Live b) (hp : ((s.ring b).scan b (s.cap b)).peek b (s.cap b) = none) :
    execDecode b dir s = .next (s.polled b ((s.ring b).scan b (s.cap b)).count 0 .pending) := by
  simp only [execDecode, live_of_live s b hl, hp, finish_next]
  rw [scan_eq]
  rfl

/-- A poll that finds a type byte its table lacks pops it (R90). -/
theorem execDecode_unknown (hl : s.Live b) (hp : ((s.ring b).scan b (s.cap b)).peek b (s.cap b) = some h)
    (hrow : s.cfg.lookupType dir (groupOf h) = none) :
    execDecode b dir s =
      .next (s.polled b (((s.ring b).scan b (s.cap b)).count - 1) 0 (.error .unknownFrameType)) := by
  simp only [execDecode, live_of_live s b hl, hp, hrow, finish_next, Ring.popped]
  rw [scan_eq]
  rfl

/-- Once the garbage and the first `n` bytes from the marked head on are consumed, the queue is what follows them (R78, R92). -/
theorem polled_queue {n : Nat} (hN : 1 ≤ s.cap b) (hq : (s.ring b).queue b (s.cap b) = g ++ h :: rest)
    (hg : ∀ x ∈ g, x.marked = false) (hh : h.marked = true) (hn : n ≤ rest.length + 1) (k : Nat) (o : PollOutcome) :
    ((s.polled b (rest.length + 1 - n) k o).ring b).queue b (s.cap b) = (h :: rest).drop n := by
  have hcount := scan_count_marked hN hq hg hh
  have hdrained := queue_drained (b := b) hN n ((s.ring b).scan b (s.cap b)) (by omega)
  rw [scan_queue_marked hN hq hg hh, hcount, scan_eq] at hdrained
  rw [polled_ring]
  exact hdrained

/-- Settles O13: the scan drops the whole queue, so it leaves no head to look at. -/
theorem pollOfGarbageIsPending : Obligations.PollOfGarbageIsPending := by
  intro s b dir hl hN hg
  have hempty : ((s.ring b).scan b (s.cap b)).queue b (s.cap b) = [] := by
    rw [scan_queue hN, List.dropWhile_eq_nil_iff]
    simpa using hg
  have hcount : ((s.ring b).scan b (s.cap b)).count = 0 := by rw [← queue_length b (s.cap b), hempty]; rfl
  have hpoll := execDecode_no_head (dir := dir) hl (by rw [peek_eq_head hN, hempty]; rfl)
  rwa [hcount] at hpoll

/-- Settles O14: the poll pops the one byte at the head of the scanned queue. -/
theorem unknownTypeCodeCostsOneByte : Obligations.UnknownTypeCodeCostsOneByte := by
  intro s b dir g rest h hl hN hq hg hh hrow
  have hpoll := execDecode_unknown hl (scan_peek_marked hN hq hg hh) hrow
  rw [scan_count_marked hN hq hg hh] at hpoll
  exact ⟨hpoll, polled_queue hN hq hg hh (n := 1) (by omega) 0 _⟩

/-- Settles O15: the poll ends after the scan, before any byte of the frame is drained. -/
theorem incompleteFrameWaits : Obligations.IncompleteFrameWaits := by
  intro s b dir g rest h row hl hN hq hg hh hrow hok hshort
  have hcount := scan_count_marked hN hq hg hh
  have hpoll := execDecode_frame s b dir hl (scan_peek_marked hN hq hg hh) hrow hok
  rw [pollFrame_short s b dir row (by omega), hcount] at hpoll
  exact ⟨hpoll, polled_queue hN hq hg hh (n := 0) (by omega) 0 _⟩

/-! ## The value errors of a whole frame -/

/-- An id its catalog lacks is an error in either format that starts with an id (R67, R94). -/
theorem drainedOutcome_unknownId {cfg : Config} {draw : Nat} {k : Byte} {p : List Byte} (hok : row.ok dir = true)
    (hlen : row.length ≤ p.length + 2) (hformat : row.format = .fi ∨ row.format = .fv)
    (hid : lookupId (catalogOf cfg row.kind) k = none) :
    drainedOutcome cfg b draw row ((h :: k :: p).take row.length).tail = some (.error .unknownCatalogId) := by
  obtain ⟨-, -, hlength, -⟩ := (row_ok_iff dir row).1 hok
  rcases hformat with hfi | hfv
  · simp [drainedOutcome, hlength, hfi, Format.length, decodePayload, hid]
  · rw [hlength, hfv] at hlen
    match p, hlen with
    | p0 :: p1 :: _, _ => simp [drainedOutcome, hlength, hfv, Format.length, decodePayload, hid]

/-- A raw value paired with no member is invalid (R119). -/
theorem decodeValue_no_member {members : List (BitVec 14 × String)} {w : BitVec 14} (hw : ∀ m, (w, m) ∉ members) :
    decodeValue (.enum members) w = none := by
  rw [decodeValue, Option.map_eq_none_iff, List.find?_eq_none]
  rintro ⟨raw, m⟩ hmem hraw
  exact hw m (beq_iff_eq.1 hraw ▸ hmem)

/-- A value of an enumerated entry without a member is an error (R94, R119). -/
theorem drainedOutcome_invalidValue {cfg : Config} {draw : Nat} {k p0 p1 : Byte} {p : List Byte} {e : Entry}
    (hok : row.ok dir = true) (hfv : row.format = .fv) (hid : lookupId (catalogOf cfg row.kind) k = some e)
    (hvalue : decodeValue e.kind (wireField cfg.markedPolicy b draw p0 p1) = none) :
    drainedOutcome cfg b draw row ((h :: k :: p0 :: p1 :: p).take row.length).tail =
      some (.error .invalidEnumeratedValue) := by
  obtain ⟨-, -, hlength, -⟩ := (row_ok_iff dir row).1 hok
  simp [drainedOutcome, hlength, hfv, Format.length, decodePayload, hid, hvalue]

/-- Settles O16: the drained frame has an outcome, which its payload bytes determine. -/
theorem completeFrameIsConsumedWhole : Obligations.CompleteFrameIsConsumedWhole := by
  intro s b dir g rest h row hl hN hq hg hh hrow hok hlen
  have hpos : 1 ≤ row.length := row_ok_length hok ▸ kind_length_pos _
  obtain ⟨o, ho, hpending, -, -⟩ := drainedOutcome_total s.cfg b (s.ring b).draws hok
    ((h :: rest).take row.length).tail (by simp; omega)
  refine ⟨_, o, hpending, execDecode_complete hl hN hq hg hh hrow hok hlen ho, polled_queue hN hq hg hh hlen _ o, ?_, ?_⟩
  · rintro k p hformat rfl hid
    exact Option.some.inj (ho.symm.trans (drainedOutcome_unknownId hok hlen hformat hid))
  · rintro k p0 p1 p e members hfv rfl hid hkind hmember
    exact Option.some.inj (ho.symm.trans
      (drainedOutcome_invalidValue hok hfv hid (hkind ▸ decodeValue_no_member hmember)))

/-- Settles O19: a well-formed table has no entry to refuse, and a live instance no fault mark. -/
theorem everyPollAnswers : Obligations.EveryPollAnswers := by
  intro s b dir hw hl
  rcases execDecode_cases b dir s with ⟨hf, -⟩ | ⟨-, -, row, hrow, hbad⟩ | ⟨-, hanswer⟩
  · exact absurd (hf.symm.trans hl) (by decide)
  · exact absurd ((table_rows_ok (table_wf hw dir) hrow).symm.trans hbad) (by decide)
  · exact hanswer

/-! ## The poll as the frame's own instruction -/

/-- A frame that is fetched decodes at the head of the scanned queue, and its instruction runs on the scanned device with the
frame's own free values taken (R87; log 7). -/
theorem fetchFrame_ok_cases (hf : fetchFrame s b dir = .ok (i, u)) :
    ∃ h rest row o, ((s.ring b).scan b (s.cap b)).queue b (s.cap b) = h :: rest ∧ h.marked = true ∧
      s.cfg.lookupType dir (groupOf h) = some row ∧ row.ok dir = true ∧ row.length ≤ rest.length + 1 ∧
      drainedOutcome s.cfg b (s.ring b).draws row ((h :: rest).take row.length).tail = some o ∧
      u = s.setRing b (((s.ring b).scan b (s.cap b)).drawn
        (frameDraws s.cfg.markedPolicy row.format ((h :: rest).take row.length).tail)) ∧
      exec i u = acceptFrame u b row.length o := by
  unfold fetchFrame at hf
  simp only at hf
  split at hf
  · cases hf
  · next j hd =>
    obtain ⟨h, rest, row, o, hq, hh, hrow, hok, hlen, ho, hexec⟩ := decodeFrame_ok_cases hd
    rw [hq] at hf hlen ho
    simp only [List.headD_cons, hrow] at hf
    cases hf
    exact ⟨h, rest, row, o, hq, hh, hrow, hok, hlen, by simpa using ho, rfl, hexec _ (setRing_cfg s b _)⟩

/-- The garbage a scan drops stands before what it leaves (R82). -/
theorem queue_of_scan_queue {q : List Byte} (hN : 1 ≤ s.cap b)
    (hq : ((s.ring b).scan b (s.cap b)).queue b (s.cap b) = q) :
    ∃ g, (s.ring b).queue b (s.cap b) = g ++ q ∧ ∀ x ∈ g, x.marked = false := by
  rw [scan_queue hN] at hq
  refine ⟨((s.ring b).queue b (s.cap b)).takeWhile fun x => !x.marked, ?_, fun x hx => ?_⟩
  · rw [← hq, List.takeWhile_append_dropWhile]
  · simpa using List.mem_takeWhile_imp hx

/-- A poll's end does not see the scan before it, only the free values taken there. -/
theorem polled_scanned (n c : Nat) (o : PollOutcome) :
    (s.setRing b (((s.ring b).scan b (s.cap b)).drawn n)).polled b c 0 o = s.polled b c n o := by
  simp only [State.polled, setRing_ring, setRing_setRing]
  rw [scan_eq]
  rfl

/-- A complete frame's instruction on the scanned device consumes the frame (R92). -/
theorem acceptFrame_scanned {L : Nat} (hl : s.Live b) (hL : L ≤ ((s.ring b).scan b (s.cap b)).count) (n : Nat)
    (o : PollOutcome) :
    acceptFrame (s.setRing b (((s.ring b).scan b (s.cap b)).drawn n)) b L o =
      .next (s.polled b (((s.ring b).scan b (s.cap b)).count - L) n o) := by
  rw [acceptFrame_complete (live_setRing.2 (by simpa using hl)) (by simpa using hL), setRing_ring, drawn_count,
    polled_scanned]

/-- Settles O17: both consume the frame's length and return the outcome of its payload bytes. -/
theorem pollIsTheFramesOwnInstruction : Obligations.PollIsTheFramesOwnInstruction := by
  intro s u b dir i hl hN hf
  obtain ⟨h, rest, row, o, hscan, hh, hrow, hok, hlen, ho, rfl, hexec⟩ := fetchFrame_ok_cases hf
  obtain ⟨g, hq, hg⟩ := queue_of_scan_queue hN hscan
  have hcount := scan_count_marked hN hq hg hh
  rw [hexec, acceptFrame_scanned hl (by omega), hcount]
  exact execDecode_complete hl hN hq hg hh hrow hok hlen ho

/-- Settles O22: the step is the poll of the device with the event taken, and that poll is the frame's own instruction. -/
theorem stepRunsTheFrameAtTheHead : Obligations.StepRunsTheFrameAtTheHead := by
  intro s u r rest i hs hop hl hN hf
  have hd : decodeRequest r = .ok (.decode r.buf r.dir) := by simp [decodeRequest, hop]
  rw [step_of_operation hs hd]
  rw [← taken_of_schedule hs] at hf ⊢
  exact pollIsTheFramesOwnInstruction s.taken u r.buf r.dir i (by simpa [State.Live] using hl) (by simpa using hN) hf

/-! ## Frames that wait -/

/-- Settles O28: each frame is `acceptFrame` of its kind's length, and that waits while fewer bytes are there. -/
theorem shortFramesWait : Obligations.ShortFramesWait := by
  intro s b p w n hl waits
  refine ⟨fun h => ⟨?_, ?_, ?_, ?_, ?_, ?_⟩, fun h => ⟨?_, ?_, ?_⟩, fun h => ⟨?_, ?_, ?_⟩, fun h => ⟨?_, ?_⟩⟩ <;>
    exact acceptFrame_short hl h

end Sys2Proof.Machine
end

section
/-! PROOF. `ENCODE` (43_encode.md): the payload bytes as numbers (R102), the device a frame that fits leaves (R99 to R101, R104),
and the poll that reads it back (R105). -/

namespace Sys2Proof.Machine

variable {s : State} {b : Buf} {N : Nat} {B : Ring}

/-! ## Payload bytes as numbers -/

/-- An identity of a well-formed catalog names its own entry (R122). -/
theorem entryNamed_name {c : Catalog} (hw : c.wf = true) {x : Entry} (hx : x ∈ c) : entryNamed c x.name = some x := by
  simp only [Catalog.wf, Bool.and_eq_true, decide_eq_true_eq] at hw
  exact find?_of_unique hx (beq_self_eq_true _) fun y hy hname => List.inj_on_of_nodup_map hw.2 hy hx (beq_iff_eq.1 hname)

theorem idByte_eq_ofNat (e : Entry) : idByte e = BitVec.ofNat 8 e.id.toNat := (BitVec.ofNat_toNat 8 e.id).symm

/-- Settles O31: an identity finds its entry, and the id and the groups are written out as numbers. -/
theorem payloadBytesFollowTheFormat : Obligations.PayloadBytesFollowTheFormat := by
  intro c hw
  refine ⟨rfl, fun f => rfl, fun e he => ?_, fun e he v w henc => ?_, fun n => ?_⟩
  · simp [encodePayload, entryNamed_name hw he, idByte_eq_ofNat]
  · simp [encodePayload, entryNamed_name hw he, henc, idByte_eq_ofNat, split14_eq_ofNat]
  · rw [encodePayload, split28_eq_ofNat]

/-! ## The device after an encode that fits -/

/-- The first push brings the cursor into range, wherever it stood (R72). -/
theorem pushAll_cons_wcur (x : Byte) (xs : List Byte) (h : B.count + (x :: xs).length ≤ N) :
    (B.pushAll b N (x :: xs)).wcur = (B.wcur + (x :: xs).length) % N := by
  rw [List.length_cons] at h ⊢
  have hc : B.count < N := by omega
  have hN : 1 ≤ N := by omega
  have htail := pushAll_wcur (b := b) hN xs (B.pushed N x) (by rw [pushed_count]; omega) (Nat.mod_lt _ hN)
  rw [Ring.pushAll, push_of_room hc, htail, pushed_wcur, Nat.mod_add_mod, Nat.add_assoc, Nat.add_comm 1]

/-- The device after an encode of these bytes. -/
def State.encoded (s : State) (b : Buf) (xs : List Byte) : State :=
  (s.setRing b ((s.ring b).pushAll b (s.cap b) xs)).setResult (.written true)

@[simp] theorem encoded_cfg (xs : List Byte) : (s.encoded b xs).cfg = s.cfg := setRing_cfg s b _
@[simp] theorem encoded_schedule (xs : List Byte) : (s.encoded b xs).schedule = s.schedule := setRing_schedule s b _
@[simp] theorem encoded_result (xs : List Byte) : (s.encoded b xs).result = .written true := rfl
@[simp] theorem encoded_cap (xs : List Byte) : (s.encoded b xs).cap b = s.cap b := setRing_cap s b b _
@[simp] theorem encoded_ring (xs : List Byte) : (s.encoded b xs).ring b = (s.ring b).pushAll b (s.cap b) xs := by
  rw [State.encoded, setResult_ring, setRing_ring]
theorem encoded_ring_ne {c : Buf} (h : c ≠ b) (xs : List Byte) : (s.encoded b xs).ring c = s.ring c := by
  rw [State.encoded, setResult_ring, setRing_ring_ne _ _ _ _ h]

/-- An operand of `ENCODE` has an entry and payload bytes, which make a frame of its kind's length (R98, R101, R102). -/
theorem operand_frame {m : Message} (hw : s.cfg.wf = true) (hm : m.wf s.cfg = true) :
    ∃ row q, s.cfg.entryOf m.kind = some row ∧ encodePayload (catalogOf s.cfg m.kind) m.payload = some q ∧
      (typeByte row.code :: q).length = m.kind.length := by
  obtain ⟨row, hrow⟩ := entryOf_total hw m.kind
  obtain ⟨q, hq⟩ := encodePayload_total hm
  exact ⟨row, q, hrow, hq, encodePayload_length _ m q hq⟩

/-- Settles O29: by whether the frame fits; what it leaves is what pushing its bytes leaves. -/
theorem encodeIsAllOrNothing : Obligations.EncodeIsAllOrNothing := by
  intro s b m hw hm hl
  obtain ⟨row, q, hrow, hq, hlen⟩ := operand_frame hw hm
  obtain ⟨hmem, hkind⟩ := entryOf_some hrow
  have hok := entryOf_ok hw hrow
  refine ⟨row, q, hmem, hkind, hq, hlen, execEncode_full hl hrow hok hq, fun hroom => ?_⟩
  have hpos := kind_length_pos m.kind
  have hfit : (s.ring b).count + (typeByte row.code :: q).length ≤ s.cap b := by omega
  refine ⟨s.encoded b (typeByte row.code :: q), execEncode_fits hl hrow hok hq hroom, encoded_result _, ?_⟩
  rw [encoded_ring, ← hlen]
  exact ⟨pushAll_queue _ _ hfit, pushAll_count _ _ hfit, pushAll_cons_wcur _ _ hfit, (pushAll_fault _ _ hfit).trans hl,
    pushAll_epoch _ _ hfit, pushAll_draws _ _ hfit, fun c hc => encoded_ring_ne hc _, encoded_cfg _, encoded_schedule _⟩

/-! ## Encode, then decode -/

/-- Settles O32: the encode leaves its frame as the whole queue, and the poll of an encoded frame returns the carried message. -/
theorem encodeThenDecodeReturnsTheMessage : Obligations.EncodeThenDecodeReturnsTheMessage := by
  intro s b m hw hm hl hempty hroom
  obtain ⟨row, q, hrow, hq, hlen⟩ := operand_frame hw hm
  have hencode := execEncode_fits hl hrow (entryOf_ok hw hrow) hq (by rwa [hempty])
  have hfit : (s.ring b).count + (typeByte row.code :: q).length ≤ s.cap b := by rwa [hempty, Nat.zero_add, hlen]
  have hlive : (s.encoded b (typeByte row.code :: q)).Live b := by
    rw [State.Live, encoded_ring, pushAll_fault _ _ hfit]
    exact hl
  have hqueue : ((s.encoded b (typeByte row.code :: q)).ring b).queue b (s.cap b) = typeByte row.code :: q := by
    rw [encoded_ring, pushAll_queue _ _ hfit, queue_of_count_zero hempty, List.nil_append]
  have hdecode := execDecode_encoded (s := s.encoded b (typeByte row.code :: q)) (g := []) (rest := []) (by simpa using hw)
    hlive (by simpa using hrow) (by simpa using hq) (by simp) (by simpa using hqueue)
  rw [encoded_cfg] at hdecode
  exact ⟨_, _, hencode, rfl, hdecode, polled_result _ _, by rw [polled_ring]; rfl⟩

end Sys2Proof.Machine
end

section
/-! PROOF. The fields, values and catalogs (44_fields_and_catalogs.md): booleans (R106, R107), the 28-bit field as a number (R110,
R111), the signed 14-bit field as two's complement (R112), truncation toward zero (R115) and the bounds of a scaled value's way
through the wire (R116, R117, R128), members (R119, R120) and ids (R121, R122). -/

namespace Sys2Proof

/-- A field above a lower one adds to it. -/
theorem toNat_or_shiftLeft {n i : Nat} {x y : BitVec n} (hx : x.toNat < 2 ^ i) (hy : 2 ^ i * y.toNat < 2 ^ n) :
    (x ||| y <<< i).toNat = x.toNat + 2 ^ i * y.toNat := by
  have hshift : (y <<< i).toNat = 2 ^ i * y.toNat := by
    rw [BitVec.toNat_shiftLeft, Nat.shiftLeft_eq, Nat.mul_comm, Nat.mod_eq_of_lt hy]
  rw [BitVec.toNat_or, hshift, Nat.or_comm, ← Nat.two_pow_add_eq_or_of_lt hx, Nat.add_comm]

/-- The 28-bit field as a number, low group first (R57, R110). -/
theorem assemble28_toNat (p0 p1 p2 p3 : Byte) : (assemble28 p0 p1 p2 p3).toNat =
    p0.toNat % 128 + 128 * (p1.toNat % 128) + 16384 * (p2.toNat % 128) + 2097152 * (p3.toNat % 128) := by
  have hgroup (p : Byte) : ((groupOf p).setWidth 28).toNat = p.toNat % 128 := by
    rw [BitVec.toNat_setWidth_of_le (by decide), groupOf_toNat]
  have h1 := toNat_or_shiftLeft (x := (groupOf p0).setWidth 28) (y := (groupOf p1).setWidth 28) (i := 7)
    (by rw [hgroup]; omega) (by rw [hgroup]; omega)
  have h2 := toNat_or_shiftLeft (y := (groupOf p2).setWidth 28) (i := 14)
    (by rw [h1, hgroup, hgroup]; omega) (by rw [hgroup]; omega)
  have h3 := toNat_or_shiftLeft (y := (groupOf p3).setWidth 28) (i := 21)
    (by rw [h2, h1, hgroup, hgroup, hgroup]; omega) (by rw [hgroup]; omega)
  simp only [assemble28, h3, h2, h1, hgroup, Nat.reducePow]

end Sys2Proof

namespace Sys2Proof.Machine

/-! ## Boolean and group fields -/

/-- Settles O41: the test is of the whole byte, and 0x01 is not 0x00. -/
theorem booleanBytes : Obligations.BooleanBytes :=
  ⟨fun _ => bne_iff_ne, fun f => by cases f <;> rfl⟩

/-- Settles O40: the field as a number, its groups as numbers, and that they assemble to what they were made of. -/
theorem twentyEightBitGroups : Obligations.TwentyEightBitGroups := by
  refine ⟨assemble28_toNat, fun s => ⟨_, _, _, _, rfl, assemble28_groups s, ?_, ?_, ?_, ?_⟩⟩ <;>
    rw [groupByte_eq_ofNat, BitVec.toNat_ofNat] <;> omega

/-! ## The signed field -/

/-- `ToWire14` undoes `SignExtend14` (R112, D19). -/
theorem toWire14_signExtend14 (w : BitVec 14) : toWire14 (signExtend14 w) = w := by
  rw [signExtend14_eq_toInt, toWire14, BitVec.ofInt_toInt]

/-- Settles O38: the sign-extended value is the two's complement reading of the 14 bits. -/
theorem signExtensionTestsBitThirteen : Obligations.SignExtensionTestsBitThirteen := by
  refine ⟨fun w => ?_, fun w => ⟨?_, ?_, toWire14_signExtend14 w⟩,
    fun r hlo hhi => ⟨signExtend14_toWire14 hlo hhi, ?_⟩⟩
  · have hmsb : w.msb = w.getLsbD 13 := BitVec.msb_eq_getLsbD_last w
    rw [signExtend14_eq_toInt, BitVec.toInt_eq_msb_cond, hmsb]
    rfl
  · rw [signExtend14_eq_toInt]
    exact BitVec.le_toInt w
  · rw [signExtend14_eq_toInt]
    exact Int.le_of_lt_add_one BitVec.toInt_lt
  · rw [toWire14, BitVec.toNat_ofInt]
    omega

/-! ## Truncation toward zero -/

theorem truncZero_neg (q : Rat) : truncZero (-q) = -truncZero q := by
  rw [truncZero, truncZero, Rat.neg_num, Rat.neg_den, Int.neg_tdiv]

/-- From 0 up truncation is the floor, so the floor's laws hold of it; below 0 it is minus that of `-q`. -/
theorem truncZero_of_nonneg {q : Rat} (hq : 0 ≤ q) : truncZero q = ⌊q⌋ := by
  rw [truncZero, Int.tdiv_eq_ediv_of_nonneg (Rat.num_nonneg.2 hq), Rat.floor_def']

theorem truncZero_of_nonpos {q : Rat} (hq : q ≤ 0) : truncZero q = ⌈q⌉ := by
  rw [← neg_neg q, truncZero_neg, truncZero_of_nonneg (neg_nonneg.2 hq), Int.ceil_neg]

theorem truncZero_intCast (r : Int) : truncZero r = r := by simp [truncZero]

theorem le_truncZero {n : Int} {q : Rat} (h : n ≤ q) : n ≤ truncZero q := by
  rcases le_total 0 q with hq | hq
  · rw [truncZero_of_nonneg hq]
    exact Int.le_floor.2 h
  · rw [truncZero_of_nonpos hq]
    exact_mod_cast h.trans (Int.le_ceil q)

theorem truncZero_le {n : Int} {q : Rat} (h : q ≤ n) : truncZero q ≤ n := by
  have hneg : -n ≤ truncZero (-q) := le_truncZero (by push_cast; exact neg_le_neg h)
  rw [truncZero_neg] at hneg
  exact neg_le_neg_iff.1 hneg

theorem truncZero_mem_of_nonneg {q : Rat} (hq : 0 ≤ q) : 0 ≤ (truncZero q : Rat) ∧ (truncZero q : Rat) ≤ q := by
  rw [truncZero_of_nonneg hq]
  exact ⟨Int.cast_nonneg (Int.floor_nonneg.2 hq), Int.floor_le q⟩

theorem truncZero_mem_of_nonpos {q : Rat} (hq : q ≤ 0) : q ≤ (truncZero q : Rat) ∧ (truncZero q : Rat) ≤ 0 := by
  rw [truncZero_of_nonpos hq]
  exact ⟨Int.le_ceil q, Int.cast_nonpos.2 (Int.ceil_nonpos.2 hq)⟩

/-- The discarded fraction is less than 1 (R115). -/
theorem abs_truncZero_sub_lt (q : Rat) : |(truncZero q : Rat) - q| < 1 := by
  rcases le_total 0 q with hq | hq
  · rw [truncZero_of_nonneg hq, abs_sub_comm, ← Int.fract, Int.abs_fract]
    exact Int.fract_lt_one q
  · rw [truncZero_of_nonpos hq, abs_of_nonneg (sub_nonneg.2 (Int.le_ceil q)), sub_lt_iff_lt_add']
    exact Int.ceil_lt_add_one q

/-! ## Clamping -/

theorem clampInt_eq_max_min {lo hi : Int} (h : lo ≤ hi) (x : Int) : clampInt x lo hi = max lo (min hi x) := by
  unfold clampInt
  split_ifs <;> omega

theorem clampInt_of_mem {x lo hi : Int} (hlo : lo ≤ x) (hhi : x ≤ hi) : clampInt x lo hi = x := by
  rw [clampInt, if_neg (by omega), if_neg (by omega)]

theorem clampInt_of_le {x lo hi : Int} (h : lo ≤ hi) (hx : x ≤ lo) : clampInt x lo hi = lo := by
  rw [clampInt_eq_max_min h]
  omega

theorem clampInt_of_ge {x lo hi : Int} (h : lo ≤ hi) (hx : hi ≤ x) : clampInt x lo hi = hi := by
  rw [clampInt_eq_max_min h]
  omega

/-! ## Scaled values -/

section
variable {scale : Nat} {signed : Bool} {lo hi : Int} {v : Rat}

theorem scaled_wf_cases (hw : (EntryKind.scaled scale signed lo hi).wf = true) : 1 ≤ scale ∧ lo ≤ hi := by
  simp only [EntryKind.wf, Bool.and_eq_true, decide_eq_true_eq] at hw
  exact hw.1

/-- Encoding gives a wire value of the quantized raw value (R116). -/
theorem encodeValue_scaled (hw : (EntryKind.scaled scale signed lo hi).wf = true) (v : Rat) :
    ∃ w, encodeValue (.scaled scale signed lo hi) (.scaled v) = some w ∧ rawOfWire signed w = quantize scale lo hi v :=
  ⟨_, rfl, rawOfWire_quantize hw v⟩

/-- What quantizes to the raw value of a wire value encodes to that wire value (R116). -/
theorem encodeValue_of_quantize {w : BitVec 14} (h : quantize scale lo hi v = rawOfWire signed w) :
    encodeValue (.scaled scale signed lo hi) (.scaled v) = some w := by
  rw [encodeValue, h]
  cases signed with
  | true => exact congrArg some (toWire14_signExtend14 w)
  | false => exact congrArg some (BitVec.ofNat_toNat 14 w)

theorem quantize_of_integer {r : Int} (hlo : lo ≤ r) (hhi : r ≤ hi) (hv : v * scale = r) : quantize scale lo hi v = r := by
  rw [quantize, hv, truncZero_intCast, clampInt_of_mem hlo hhi]

/-- In the range nothing is clamped. -/
theorem quantize_of_mem (hlo : lo ≤ v * scale) (hhi : v * scale ≤ hi) : quantize scale lo hi v = truncZero (v * scale) :=
  clampInt_of_mem (le_truncZero hlo) (truncZero_le hhi)

/-- A scaled value comes back exactly when it is an integer of the range over the scale (R128). -/
theorem quantize_div_eq_iff (hs : 1 ≤ scale) (hle : lo ≤ hi) :
    (quantize scale lo hi v : Rat) / scale = v ↔ ∃ r : Int, lo ≤ r ∧ r ≤ hi ∧ v * scale = r := by
  have hne : (scale : Rat) ≠ 0 := by positivity
  constructor
  · intro hv
    obtain ⟨hlo, hhi⟩ : lo ≤ quantize scale lo hi v ∧ quantize scale lo hi v ≤ hi := clampInt_mem hle _
    exact ⟨_, hlo, hhi, ((div_eq_iff hne).1 hv).symm⟩
  · rintro ⟨r, hlo, hhi, hv⟩
    rw [quantize_of_integer hlo hhi hv, ← hv, mul_div_cancel_right₀ v hne]

/-- In the range a scaled value comes back off by less than `1/scale` and toward zero (R128, D18). -/
theorem quantize_div_of_mem (hs : 1 ≤ scale) (hlo : lo ≤ v * scale) (hhi : v * scale ≤ hi) :
    |(quantize scale lo hi v : Rat) / scale - v| < 1 / scale ∧
    (0 ≤ v → 0 ≤ (quantize scale lo hi v : Rat) / scale ∧ (quantize scale lo hi v : Rat) / scale ≤ v) ∧
    (v ≤ 0 → v ≤ (quantize scale lo hi v : Rat) / scale ∧ (quantize scale lo hi v : Rat) / scale ≤ 0) := by
  have hpos : (0 : Rat) < scale := by positivity
  rw [quantize_of_mem hlo hhi]
  refine ⟨?_, fun hv => ?_, fun hv => ?_⟩
  · calc |(truncZero (v * scale) : Rat) / scale - v| = |(truncZero (v * scale) : Rat) - v * scale| / scale := by
          rw [div_sub' hpos.ne', mul_comm, abs_div, abs_of_pos hpos]
      _ < 1 / scale := div_lt_div_of_pos_right (abs_truncZero_sub_lt _) hpos
  · obtain ⟨h0, hq⟩ := truncZero_mem_of_nonneg (mul_nonneg hv hpos.le)
    exact ⟨div_nonneg h0 hpos.le, (div_le_iff₀ hpos).2 hq⟩
  · obtain ⟨hq, h0⟩ := truncZero_mem_of_nonpos (mul_nonpos_of_nonpos_of_nonneg hv hpos.le)
    exact ⟨(le_div_iff₀ hpos).2 hq, div_nonpos_of_nonpos_of_nonneg h0 hpos.le⟩

end

/-- Settles O37: the raw value is the quantized one, a clamp as maximum and minimum. -/
theorem encodingSaturates : Obligations.EncodingSaturates := by
  intro scale signed lo hi v hw
  obtain ⟨-, hle⟩ := scaled_wf_cases hw
  obtain ⟨w, henc, hraw⟩ := encodeValue_scaled hw v
  refine ⟨w, henc, hraw.trans (clampInt_eq_max_min hle _), ?_⟩
  rw [hraw]
  exact clampInt_mem hle _

/-- Settles O35: what comes back is the quantized value over the scale, and the bounds hold of that. -/
theorem scaledValuesRoundTrip : Obligations.ScaledValuesRoundTrip := by
  intro scale signed lo hi hw
  obtain ⟨hs, hle⟩ := scaled_wf_cases hw
  have hpos : (0 : Rat) < scale := by positivity
  refine ⟨fun v => ?_, fun w v hlo hhi hdec => ?_⟩
  · obtain ⟨w, henc, hraw⟩ := encodeValue_scaled hw v
    refine ⟨w, (quantize scale lo hi v : Rat) / scale, henc, by rw [decodeValue, hraw], rfl,
      quantize_div_eq_iff hs hle,
      fun hlo hhi => quantize_div_of_mem hs ((div_le_iff₀ hpos).1 hlo) ((le_div_iff₀ hpos).1 hhi),
      fun hv => ?_, fun hv => ?_⟩
    · rw [quantize, clampInt_of_le hle (truncZero_le ((lt_div_iff₀ hpos).1 hv).le)]
    · rw [quantize, clampInt_of_ge hle (le_truncZero ((div_lt_iff₀ hpos).1 hv).le)]
  · cases hdec
    exact encodeValue_of_quantize (quantize_of_integer hlo hhi (div_mul_cancel₀ _ hpos.ne'))

/-! ## Members -/

/-- Distinct raws: a raw value decodes to the member it is paired with (R119). -/
theorem decodeValue_member {members : List (BitVec 14 × String)} {w : BitVec 14} {m : String}
    (hw : (EntryKind.enum members).wf = true) (hm : (w, m) ∈ members) :
    decodeValue (.enum members) w = some (.member m) := by
  have hraws : (members.map Prod.fst).Nodup := of_decide_eq_true hw
  rw [decodeValue, find?_of_unique hm (beq_self_eq_true w) fun r hr hraw =>
    List.inj_on_of_nodup_map hraws hr hm (beq_iff_eq.1 hraw)]
  rfl

/-- A member encodes to a raw value paired with it (R120). -/
theorem encodeValue_member {members : List (BitVec 14 × String)} {r : BitVec 14} {m : String} (hm : (r, m) ∈ members) :
    ∃ w, (w, m) ∈ members ∧ encodeValue (.enum members) (.member m) = some w := by
  obtain ⟨p, hp⟩ := Option.isSome_iff_exists.1 (List.find?_isSome (p := fun p => p.2 == m).2 ⟨_, hm, beq_self_eq_true m⟩)
  obtain rfl : p.2 = m := by simpa using List.find?_some hp
  exact ⟨p.1, List.mem_of_find?_eq_some hp, by rw [encodeValue, hp]; rfl⟩

/-- Settles O36: the raw value it encodes to is paired with it, so decodes to it. -/
theorem enumMembersRoundTrip : Obligations.EnumMembersRoundTrip := by
  rintro members m hw ⟨r, hr⟩
  obtain ⟨w, hm, henc⟩ := encodeValue_member hr
  exact ⟨w, hm, henc, decodeValue_member hw hm⟩

/-! ## Ids -/

/-- Settles O43: an id has seven bits, so a marked byte is none, and an entry is what its id byte and its identity find. -/
theorem catalogLookupInvertsIds : Obligations.CatalogLookupInvertsIds := by
  refine ⟨fun c k hk => lookupId_marked c ?_, fun c hw e he => ⟨lookupId_idByte hw he, entryNamed_name hw he, ?_, ?_⟩⟩
  · rw [← Bool.not_eq_false, marked_eq_false_iff]
    omega
  · exact (marked_eq_false_iff _).1 (idByte_unmarked e)
  · intro f hf hid
    have hfound := lookupId_idByte hw hf
    rw [hid, lookupId_idByte hw he] at hfound
    exact (Option.some.inj hfound).symm

end Sys2Proof.Machine
end

section
/-! PROOF. The frames as instructions where their bytes are all there (45_messages_controller_bound.md,
46_messages_remote_bound.md): each is `acceptFrame` of its kind's length, so what is left is its outcome, which for an id is the
lookup (R121) and for a value the lookup and then `DecodeValue` (R117, R119, R152). -/

namespace Sys2Proof.Machine

/-! ## The outcome of an id -/

section
variable {c : Catalog} {k : Byte} {e : Entry}

theorem identOutcome_unknown (hid : lookupId c k = none) (mk : String → Message) :
    identOutcome c k mk = .error .unknownCatalogId := by rw [identOutcome, hid]

theorem identOutcome_found (hid : lookupId c k = some e) (mk : String → Message) :
    identOutcome c k mk = .message (mk e.name) := by rw [identOutcome, hid]

/-! ## The outcome of a value -/

variable {w : BitVec 14} (mk : String → PhysValue → Message)

theorem valueOutcome_unknown (hid : lookupId c k = none) : valueOutcome c k w mk = .error .unknownCatalogId := by
  rw [valueOutcome, hid]

theorem valueOutcome_invalid (hid : lookupId c k = some e) (hv : decodeValue e.kind w = none) :
    valueOutcome c k w mk = .error .invalidEnumeratedValue := by simp only [valueOutcome, hid, hv]

theorem valueOutcome_found {v : PhysValue} (hid : lookupId c k = some e) (hv : decodeValue e.kind w = some v) :
    valueOutcome c k w mk = .message (mk e.name v) := by simp only [valueOutcome, hid, hv]

end

/-! ## The value of each kind of entry -/

/-- Sign extension on bit 13 as a number (R112). -/
theorem signExtend14_eq_ite (w : BitVec 14) :
    signExtend14 w = if w.toNat ≥ 8192 then (w.toNat : Int) - 16384 else (w.toNat : Int) := by
  rw [signExtend14_eq_toInt, BitVec.toInt_eq_toNat_cond]
  split <;> split <;> omega

theorem decodeValue_unsigned (scale : Nat) (lo hi : Int) (w : BitVec 14) :
    decodeValue (.scaled scale false lo hi) w = some (.scaled ((w.toNat : Rat) / (scale : Rat))) := by
  rw [decodeValue, rawOfWire, if_neg Bool.false_ne_true, Int.cast_natCast]

theorem decodeValue_signed (scale : Nat) (lo hi : Int) (w : BitVec 14) :
    decodeValue (.scaled scale true lo hi) w = some (.scaled
      (((if w.toNat ≥ 8192 then (w.toNat : Int) - 16384 else (w.toNat : Int) : Int) : Rat) / (scale : Rat))) := by
  rw [decodeValue, rawOfWire, if_pos rfl, signExtend14_eq_ite]

theorem decodeValue_of_find? {members : List (BitVec 14 × String)} {w : BitVec 14} {m : String}
    (hm : members.find? (fun p => p.1 == w) = some (w, m)) : decodeValue (.enum members) w = some (.member m) := by
  rw [decodeValue, hm, Option.map_some]

/-! ## The statements -/

/-- Settles O26: each frame ends with its value's outcome (`hexec`), and the value is that of the entry the id finds. -/
theorem valueFramesDecodeTheValue : Obligations.ValueFramesDecodeTheValue := by
  intro s b k w hl hc after frames f hf
  have hexec : exec f.1 s = after (valueOutcome f.2.1 k w f.2.2) := by
    simp only [frames, List.mem_cons, List.not_mem_nil, or_false] at hf
    obtain rfl | rfl | rfl := hf <;> exact acceptFrame_complete hl hc
  rw [hexec]
  refine ⟨fun hid => ?_, fun e scale lo hi hid hkind => ?_, fun e scale lo hi hid hkind => ?_,
    fun e members m hid hkind hm => ?_, fun e members hid hkind hm => ?_⟩
  · rw [valueOutcome_unknown _ hid]
  · rw [valueOutcome_found _ hid (hkind ▸ decodeValue_unsigned scale lo hi w)]
  · rw [valueOutcome_found _ hid (hkind ▸ decodeValue_signed scale lo hi w)]
  · rw [valueOutcome_found _ hid (hkind ▸ decodeValue_of_find? hm)]
  · rw [valueOutcome_invalid _ hid (hkind ▸ decodeValue_no_member hm)]

/-- Settles O23: each frame is `acceptFrame` of one byte and of its own message. -/
theorem framesWithoutPayloadDeliver : Obligations.FramesWithoutPayloadDeliver := by
  intro s b hl hc after
  refine ⟨?_, ?_, ?_, ?_, ?_, ?_⟩ <;> exact acceptFrame_complete hl hc

/-- Settles O24: the frame delivers its byte tested whole (R106). -/
theorem setDebugLedDelivers : Obligations.SetDebugLedDelivers := by
  intro s b p hl hc
  have hflag : decodeBool p = decide (p ≠ 0#8) :=
    Bool.eq_iff_iff.2 ((booleanBytes.1 p).trans decide_eq_true_iff.symm)
  rw [← hflag]
  exact acceptFrame_complete hl hc

/-- Settles O25: each frame ends with its id's outcome, in the parameter catalog (`hparam`) or in the statistic catalog
(`hstat`). -/
theorem idFramesLookTheIdUp : Obligations.IdFramesLookTheIdUp := by
  intro s b k hl hc after
  have hparam : exec (.ctlGetParameter b k) s = after (identOutcome s.cfg.paramCatalog k .ctlGetParameter) :=
    acceptFrame_complete hl hc
  have hstat : exec (.ctlGetStatistic b k) s = after (identOutcome s.cfg.statCatalog k .ctlGetStatistic) :=
    acceptFrame_complete hl hc
  rw [hparam, hstat]
  exact ⟨fun e hid => by rw [identOutcome_found hid], fun hid => by rw [identOutcome_unknown hid],
    fun e hid => by rw [identOutcome_found hid], fun hid => by rw [identOutcome_unknown hid]⟩

/-- Settles O27: each `Ping` is `acceptFrame` of five bytes and of its own sequence number. -/
theorem pingFramesDeliverTheSequence : Obligations.PingFramesDeliverTheSequence :=
  fun _ _ _ hl hc => ⟨acceptFrame_complete hl hc, acceptFrame_complete hl hc⟩

end Sys2Proof.Machine
end

section
/-! PROOF. The operation each select number of a request names (R163, D8). -/

namespace Sys2Proof.Machine

/-- Settles O46: `decodeRequest` evaluated at each of the eight select numbers, its operands the fields of the request. -/
theorem selectNumbers : Obligations.SelectNumbers :=
  fun _ _ _ _ => ⟨rfl, rfl, rfl, rfl, rfl, rfl, rfl, rfl⟩

end Sys2Proof.Machine
end

section
/-! PROOF. Reset and hazards (70_reset_and_hazards.md): the environment's reset of one instance (R167) and the poll that frees
space in a full buffer (R170). -/

namespace Sys2Proof.Machine

variable {s : State} {b : Buf} {dir : Dir} {row : TypeRow}

/-! ## The reset of one instance -/

theorem step_of_reset {rest : List Event} (hs : s.schedule = .reset b :: rest) :
    step s = .next (s.taken.restart b) := by
  simp only [step, hs]

/-- Settles O2: the device left is the restart of `b`, whose laws give each clause. -/
theorem runTimeResetEmptiesOneBuffer : Obligations.RunTimeResetEmptiesOneBuffer := by
  intro s b c rest hs
  refine ⟨_, step_of_reset hs, ?_, ?_, ?_, fun i => ?_, fun hc => ?_, restart_cfg _ b, setRing_result _ b _, ?_⟩
  · rw [restart_ring, restarted_count]
  · rw [restart_ring, restarted_wcur]
  · rw [restart_ring, restarted_fault]
  · rw [restart_ring, restarted_storage, Memory.read]
  · rw [restart_ring_ne _ hc, taken_ring]
  · rw [State.restart, setRing_schedule, taken_schedule, hs, List.tail_cons]

/-! ## The poll of a full buffer -/

@[simp] theorem polled_count (c n : Nat) (o : PollOutcome) : ((s.polled b c n o).ring b).count = c := by rw [polled_ring]

/-- Only an empty instance has no head byte (R75). -/
theorem count_eq_zero_of_peek_none {N : Nat} {B : Ring} (hp : B.peek b N = none) : B.count = 0 := by
  simpa [Ring.peek] using hp

/-- A poll past a known type byte waits only for a frame longer than what the scan left (R91), and otherwise consumes the
frame (R92); a buffer that could hold the whole frame therefore loses a byte to the scan or to the drain. -/
theorem pollFrame_frees_space (hok : row.ok dir = true) (hroom : row.length ≤ (s.ring b).count) :
    ∃ t, pollFrame s b dir row ((s.ring b).scan b (s.cap b)) = .next t ∧ (t.ring b).count < (s.ring b).count := by
  have hscan := scan_count_le b (s.cap b) (s.ring b)
  have hpos : 1 ≤ row.length := row_ok_length hok ▸ kind_length_pos _
  by_cases hc : ((s.ring b).scan b (s.cap b)).count < row.length
  · refine ⟨_, pollFrame_short s b dir row hc, ?_⟩
    rw [polled_count]
    exact hc.trans_le hroom
  · obtain ⟨o, -, -, -, -, hpoll⟩ := pollFrame_complete s b dir hok (Nat.not_lt.1 hc)
    refine ⟨_, hpoll, ?_⟩
    rw [polled_count]
    omega

/-- Settles O20: by the head after the scan. Without one the buffer is empty, an unknown type code is popped (R90), and a known
frame is no longer than the full buffer. -/
theorem pollOfFullBufferFreesSpace : Obligations.PollOfFullBufferFreesSpace := by
  intro s b dir hw hl hfull hsized
  have hpos : 1 ≤ (s.ring b).count := hfull ▸ capacity_pos hw b
  cases hp : ((s.ring b).scan b (s.cap b)).peek b (s.cap b) with
  | none =>
    refine ⟨_, execDecode_no_head hl hp, ?_⟩
    rw [polled_count, count_eq_zero_of_peek_none hp]
    exact hpos
  | some h =>
    cases hrow : s.cfg.lookupType dir (groupOf h) with
    | none =>
      refine ⟨_, execDecode_unknown hl hp hrow, ?_⟩
      have hscan := scan_count_le b (s.cap b) (s.ring b)
      rw [polled_count]
      omega
    | some row =>
      have hmem : row ∈ s.cfg.table dir := (lookupType_some hrow).1
      have hok : row.ok dir = true := table_rows_ok (table_wf hw dir) hmem
      have hpoll := pollFrame_frees_space (s := s) (b := b) hok (hfull ▸ hsized row hmem)
      rwa [← execDecode_frame s b dir hl hp hrow hok] at hpoll

end Sys2Proof.Machine
end
